-- ==== Sys2Proof/Word.lean ====
section
/-! DEFINITION. The word types of the core (spec 00_scope.md R8, R9): bytes, 16-bit words, 12-bit addresses of
instruction fields, register and key numbers. All values are unsigned (R9). -/

namespace Sys2Proof

/-- An 8-bit value: a register, a memory cell, a timer, the immediate `NN`. -/
abbrev Byte := BitVec 8

/-- A 16-bit value: an instruction word, `pc`, `I`, a stack entry. -/
abbrev Word := BitVec 16

/-- The 12-bit address field `NNN` of an instruction (R11, R74). -/
abbrev Addr := BitVec 12

/-- A 4-bit field of an instruction word ("Nibble", 00_scope.md glossary). -/
abbrev Nibble := BitVec 4

/-- A general register number, 0 to 15 (R20, R75). -/
abbrev Reg := Fin 16

/-- A key number of the hexadecimal keypad, 0 to 15 (R37). -/
abbrev Key := Fin 16

/-- The register VF, which doubles as the flag (R22). -/
abbrev VF : Reg := 15

end Sys2Proof
end

