-- ==== Sys2Proof/Config.lean ====
section
/-! DEFINITION. What is fixed for the machine: the sizes and parameters of spec 00_scope.md R8, and the one free value,
the random byte of `CXNN` (41_alu.md R133, decision D21). -/

namespace Sys2Proof.Config

/-- Memory size: 4096 bytes, addresses 0x000 to 0xFFF (R8, R50). -/
def memSize : Nat := 0x1000

/-- `PROG_BASE` (R8): where a program image is loaded and where execution starts. -/
def progBase : Nat := 0x200

/-- The longest program image, `4096 - 0x200 = 3584` bytes (R60, R207). -/
def maxImage : Nat := 3584

/-- `FONT_BASE` (R8, R28). The value is the spec's decision D16. Log 9. -/
def fontBase : Nat := 0x050

/-- Glyphs 0 to 3 of `FONT` (R29). -/
def fontGlyphs0to3 : List Byte :=
  [0xF0, 0x90, 0x90, 0x90, 0xF0] ++ [0x20, 0x60, 0x20, 0x20, 0x70] ++
  [0xF0, 0x10, 0xF0, 0x80, 0xF0] ++ [0xF0, 0x10, 0xF0, 0x10, 0xF0]

/-- Glyphs 4 to 7 of `FONT` (R29). -/
def fontGlyphs4to7 : List Byte :=
  [0x90, 0x90, 0xF0, 0x10, 0x10] ++ [0xF0, 0x80, 0xF0, 0x10, 0xF0] ++
  [0xF0, 0x80, 0xF0, 0x90, 0xF0] ++ [0xF0, 0x10, 0x20, 0x40, 0x40]

/-- Glyphs 8 to B of `FONT` (R29). -/
def fontGlyphs8toB : List Byte :=
  [0xF0, 0x90, 0xF0, 0x90, 0xF0] ++ [0xF0, 0x90, 0xF0, 0x10, 0xF0] ++
  [0xF0, 0x90, 0xF0, 0x90, 0x90] ++ [0xE0, 0x90, 0xE0, 0x90, 0xE0]

/-- Glyphs C to F of `FONT` (R29). -/
def fontGlyphsCtoF : List Byte :=
  [0xF0, 0x80, 0x80, 0x80, 0xF0] ++ [0xE0, 0x90, 0x90, 0x90, 0xE0] ++
  [0xF0, 0x80, 0xF0, 0x80, 0xF0] ++ [0xF0, 0x80, 0xF0, 0x80, 0x80]

/-- The parameter `FONT[0..79]` at the spec's default, the table of R29. PRESUMED: the spec itself marks the bytes
"from general knowledge, not in source" (D17). Log 6. -/
def font : List Byte := fontGlyphs0to3 ++ fontGlyphs4to7 ++ fontGlyphs8toB ++ fontGlyphsCtoF

/-- `SHL_FLAG_NORMALISE` (R8, R132): false, `8XYE` writes 0x00 or 0x80. The value is the spec's decision D7. Log 8. -/
def shlFlagNormalise : Bool := false

/-- `LOW_STORE_FAULT` (R8, R57): true, a store below 0x200 faults. The value is the spec's decision D13. Log 11. -/
def lowStoreFault : Bool := true

/-- The free value `rnd` (R4, R133, decision D21): the byte the outside supplies for the `n`-th execution of `CXNN`.
No body: any 8-bit value, under no law. Log 3. -/
opaque freeRnd : Nat → Byte

end Sys2Proof.Config
end

