-- ==== Sys2Proof/Machine/State.lean ====
section
/-! DEFINITION. The state of the core (spec 10_state.md R20 to R45) as plain data, the fault causes (60_exceptions.md
R170), the six kinds of event (00_scope.md R4), and the state after `Reset` (R43). -/

namespace Sys2Proof.Machine

/-- The fault causes of R170, by name. `noFault` is code 0: the core is running. -/
inductive Cause where
  | noFault
  | unknownOpcode
  | fetchOutOfRange
  | stackUnderflow
  | stackOverflow
  | memOutOfRange
  | storeToReserved
  | pixelOutOfRange
  | keyIndexOutOfRange
  deriving DecidableEq, Repr

/-- The 4-bit cause code of R170 (the numbering is the spec's own, D9). -/
def Cause.code : Cause → BitVec 4
  | .noFault => 0
  | .unknownOpcode => 1
  | .fetchOutOfRange => 2
  | .stackUnderflow => 3
  | .stackOverflow => 4
  | .memOutOfRange => 5
  | .storeToReserved => 6
  | .pixelOutOfRange => 7
  | .keyIndexOutOfRange => 8

/-- The fault record (R38): cause, the word and the address of the faulting instruction. -/
structure FaultRecord where
  cause  : Cause
  opcode : Word
  addr   : Word
  deriving DecidableEq, Repr

/-- No fault: all three parts 0 (R43). -/
def FaultRecord.clear : FaultRecord := ⟨.noFault, 0, 0⟩

/-- A pixel of the 64 x 32 grid (R33, R150). -/
structure Pixel where
  x : Fin 64
  y : Fin 32
  deriving DecidableEq, Repr

/-- An entry of the change log (R34): the pixel and its value just after the toggle. -/
structure LogEntry where
  pixel : Pixel
  v     : Bool
  deriving DecidableEq, Repr

/-- The framebuffer, `fb[x][y]`: 64 columns of 32 cells (R33). -/
abbrev Framebuffer := Vector (Vector Bool 32) 64

/-- The 4096-byte memory (R27) as the cells that differ from the reset contents, addresses strictly rising
(`Memory.wf` in Machine/Ops.lean). -/
abbrev Memory := List Host.Cell

/-- The six kinds of event (R4). `step` stands for `Step(rnd)`: the byte `rnd` is the free value of Config (log 3). -/
inductive Event where
  | reset
  | loadProgram (bytes : List Byte)
  | step
  | tick
  | setKey (code : Key) (pressed : Bool)
  | flush
  deriving DecidableEq, Repr

/-- The state of the core. The fields down to `loadOpen` are the spec's; `draws` and `schedule` are the model's own. -/
structure State where
  /-- V0 to VF (R20). -/
  v : Vector Byte 16
  /-- The index register (R26). -/
  i : Word
  /-- The program counter (R23). -/
  pc : Word
  /-- The return stack, a register array of its own (R30). -/
  stack : Vector Word 16
  /-- The stack pointer, 0 to 16 (R31). -/
  sp : Fin 17
  /-- The delay timer (R32). -/
  dt : Byte
  /-- The sound timer (R32). -/
  st : Byte
  /-- The key levels, true is pressed (R37). -/
  keys : Vector Bool 16
  /-- The framebuffer (R33). -/
  fb : Framebuffer
  /-- The change log, oldest entry first (R34). -/
  log : List LogEntry
  /-- The draw-requested flag (R35). -/
  drawReq : Bool
  /-- The clear-requested flag (R35). -/
  clearReq : Bool
  /-- The fault record (R38). -/
  fault : FaultRecord
  /-- The memory (R27). -/
  mem : Memory
  /-- The load window is open: no successful `LoadProgram` and no `Step` since `Reset` (R205). Log 4. -/
  loadOpen : Bool
  /-- MODEL: how many free bytes `rnd` have been drawn. Log 3. -/
  draws : Nat
  /-- MODEL: the events the outside presents next, oldest first; when none is listed the next event is `Step`. Log 2. -/
  schedule : List Event
  deriving DecidableEq, Repr

/-- The reasons a step stops the model with a fault: NONE. The spec describes the entry of every fault of this core
(R171) and what the halted core does then (R174), so a fault is a next state whose `fault` record is filled (log 1).
Nobody raises a constructor of this type, for there is none: neither safe nor unsafe. -/
inductive Fault where
  deriving DecidableEq, Repr

/-- The reasons a step refuses. -/
inductive Refusal where
  /-- An instruction that has no meaning in the model. Raised only by an arm of `exec` that is not modelled yet; no arm
  is in that case. Safe: nothing can be proved of such a run. -/
  | notModelled (mnemonic : String)
  deriving DecidableEq, Repr

/-- What a meaning answers. -/
abbrev Result := Host.Outcome State Fault Refusal

/-- The state after `Reset` (R43, R200): everything zero, the font in memory (an unlisted cell reads as its reset
contents), `pc` at 0x200 (D5, log 7). `draws` and `schedule` are DESIGN CHOICE (logs 3 and 2). -/
def State.reset : State where
  v := Vector.replicate 16 0
  i := 0
  pc := 0x200
  stack := Vector.replicate 16 0
  sp := 0
  dt := 0
  st := 0
  keys := Vector.replicate 16 false
  fb := Vector.replicate 64 (Vector.replicate 32 false)
  log := []
  drawReq := false
  clearReq := false
  fault := .clear
  mem := []
  loadOpen := true
  draws := 0
  schedule := []

end Sys2Proof.Machine
end

