-- ==== Sys2Proof/Machine/Ops.lean ====
section
/-! DEFINITION. The named operations over memory, registers, stack, keys and display, the entry of a fault (spec
60_exceptions.md R171) and the only way out of one, `Reset` (R173, R200). -/

namespace Sys2Proof.Machine

/-! ### Memory (20_memory.md) -/

/-- What an unlisted address reads as: the reset contents (R43), the font at `FONT_BASE` and zero elsewhere. -/
def Memory.unlisted (a : Nat) : Byte :=
  if Config.fontBase ≤ a then Config.font.getD (a - Config.fontBase) 0 else 0

/-- The byte at an address. -/
def Memory.read : Memory → Nat → Byte
  | [], a => Memory.unlisted a
  | c :: m, a => if c.1 = a then c.2 else Memory.read m a

/-- A memory without a cell for an address: the address reads as its reset contents. -/
def Memory.erase (m : Memory) (a : Nat) : Memory := m.filter (fun c => c.1 != a)

/-- A cell put in its place by address. -/
def Memory.insert (a : Nat) (b : Byte) : Memory → Memory
  | [] => [(a, b)]
  | c :: m => if a < c.1 then (a, b) :: c :: m else c :: Memory.insert a b m

/-- One byte stored, in canonical form: addresses stay rising, and a cell back at its reset contents is not listed. -/
def Memory.write (m : Memory) (a : Nat) (b : Byte) : Memory :=
  if b = Memory.unlisted a then m.erase a else Memory.insert a b (m.erase a)

/-- Consecutive bytes stored at ascending addresses (R55). -/
def Memory.writeBytes : Memory → Nat → List Byte → Memory
  | m, _, [] => m
  | m, a, b :: bs => Memory.writeBytes (Memory.write m a b) (a + 1) bs

/-- The `n` consecutive bytes from an address, ascending (R55). -/
def Memory.readBytes (m : Memory) (a : Nat) : Nat → List Byte
  | 0 => []
  | n + 1 => Memory.read m a :: Memory.readBytes m (a + 1) n

/-- The canonical form: addresses strictly rising, inside the 4096 bytes, no cell at its reset contents. -/
def Memory.wf : Memory → Bool
  | [] => true
  | c :: m => (c.1 < Config.memSize) && (c.2 != Memory.unlisted c.1) && m.all (fun d => c.1 < d.1) && Memory.wf m

/-- `MemRead`'s test (R56): an address above 0xFFF raises `MemOutOfRange`. -/
def readCheck (a : Nat) : Option Cause :=
  if a > 0xFFF then some .memOutOfRange else none

/-- `MemWrite`'s tests in their order (R57, R178). -/
def writeCheck (a : Nat) : Option Cause :=
  if a > 0xFFF then some .memOutOfRange
  else if a < 0x200 ∧ Config.lowStoreFault = true then some .storeToReserved
  else none

/-- The first failing test over `n` ascending addresses: every address is tested before anything is written (R175). -/
def checkRange (check : Nat → Option Cause) (a : Nat) : Nat → Option Cause
  | 0 => none
  | n + 1 =>
    match check a with
    | some c => some c
    | none => checkRange check (a + 1) n

/-! ### Registers (10_state.md R20 to R26) -/

/-- `V[r]`. -/
def State.getV (s : State) (r : Reg) : Byte := s.v[r]

/-- `V[r] <- b`. None of the registers is hardwired (R20). -/
def State.setV (s : State) (r : Reg) (b : Byte) : State := { s with v := s.v.set r b }

/-- `I <- w & 0xFFF`: every write to I is masked to 12 bits (R26; D15, log 14). -/
def State.setI (s : State) (w : Word) : State := { s with i := w &&& 0x0FFF }

/-- `pc <- w`. -/
def State.setPc (s : State) (w : Word) : State := { s with pc := w }

/-- Ordinary completion, `pc <- pc + 2` modulo 2^16 (R24, R25). -/
def State.advance (s : State) : State := s.setPc (s.pc + 2)

/-- A skip, `pc <- pc + 4` where the condition holds, else `pc + 2` (R24). -/
def State.skipIf (s : State) (c : Bool) : State := s.setPc (s.pc + if c then 4 else 2)

/-- `V0 <- m[a], …, Vk <- m[a + k]` for the `n` registers from `r` upward; registers above 15 do not exist. -/
def State.loadRegs (s : State) (r : Nat) : List Byte → State
  | [] => s
  | b :: bs => if h : r < 16 then State.loadRegs (s.setV ⟨r, h⟩ b) (r + 1) bs else s

/-- `DT <- b`. -/
def State.setDt (s : State) (b : Byte) : State := { s with dt := b }

/-- `ST <- b`. -/
def State.setSt (s : State) (b : Byte) : State := { s with st := b }

/-- Memory replaced. -/
def State.setMem (s : State) (m : Memory) : State := { s with mem := m }

/-- The load window closed (R205; log 4). -/
def State.closeLoad (s : State) : State := { s with loadOpen := false }

/-! ### The stack (R30, R31) -/

/-- `stack[sp] <- w; sp <- sp + 1`, where an entry is free. -/
def State.push (s : State) (w : Word) : Option State :=
  if h : s.sp.val < 16 then
    some { s with stack := s.stack.set s.sp.val w, sp := ⟨s.sp.val + 1, by omega⟩ }
  else none

/-- `sp <- sp - 1` and the entry `stack[sp]` at the decremented `sp`, where an entry is in use. -/
def State.pop (s : State) : Option (Word × State) :=
  if h : s.sp.val ≠ 0 then
    some (s.stack[s.sp.val - 1]'(by omega), { s with sp := ⟨s.sp.val - 1, by omega⟩ })
  else none

/-! ### Keys (R37) -/

/-- `keys[k]`. -/
def State.keyDown (s : State) (k : Key) : Bool := s.keys[k]

/-- `keys[k] <- p`. -/
def State.putKey (s : State) (k : Key) (p : Bool) : State := { s with keys := s.keys.set k p }

/-! ### Display (R33 to R35) -/

/-- `fb[x][y]`. -/
def Framebuffer.get (g : Framebuffer) (p : Pixel) : Bool := g[p.x][p.y]

/-- `fb[x][y] <- b`. -/
def Framebuffer.put (g : Framebuffer) (p : Pixel) (b : Bool) : Framebuffer := g.set p.x (g[p.x].set p.y b)

/-- Every cell 0. -/
def Framebuffer.blank : Framebuffer := Vector.replicate 64 (Vector.replicate 32 false)

/-- One toggle of `DXYN` (R152): `fb[x][y] ^ 1`, and the entry `(x, y, new value)` appended to the log. -/
def State.toggle (s : State) (p : Pixel) : State :=
  { s with fb := s.fb.put p (!s.fb.get p), log := s.log ++ [⟨p, !s.fb.get p⟩] }

/-- `drawReq <- 1`. -/
def State.requestDraw (s : State) : State := { s with drawReq := true }

/-- The framebuffer cleared, the log emptied, `clearReq <- 1` (R151). -/
def State.clearDisplay (s : State) : State := { s with fb := Framebuffer.blank, log := [], clearReq := true }

/-! ### Faults (60_exceptions.md) -/

/-- Fault entry (R171): the record is written, and no other state changes; `pc` keeps the address of the faulting
instruction. `op` is the fetched word, 0x0000 where none was fetched. -/
def State.raise (s : State) (c : Cause) (op : Word) : State := { s with fault := ⟨c, op, s.pc⟩ }

/-- The core is halted (R174). -/
def State.halted (s : State) : Bool := s.fault.cause != .noFault

/-- The only way out of a fault, and the first event of every run: `Reset` writes every piece of the core's state
(R173, R200), halted or not. The outside's schedule and the free values' counter are not the core's state. -/
def State.resetCore (s : State) : State := { State.reset with draws := s.draws, schedule := s.schedule }

end Sys2Proof.Machine
end

