-- ==== Sys2Proof/Machine/Flags.lean ====
section
/-! DEFINITION. Every flag computation of the spec (10_state.md R22): the values instructions write to VF. The conditions
are computed on the unwrapped integers (41_alu.md R120). -/

namespace Sys2Proof.Machine

/-- A flag value, 1 or 0. -/
def flagOf (c : Bool) : Byte := if c then 1 else 0

/-- `8XY4` (R128): 1 if `a + b > 255`. -/
def carryOut (a b : Byte) : Byte := flagOf (a.toNat + b.toNat > 255)

/-- `8XY5` and `8XY7` (R129, R131): 0 if `b > a` (borrow of `a - b`), else 1. -/
def notBorrow (a b : Byte) : Byte := flagOf (!(b.toNat > a.toNat))

/-- `8XY6` (R130): the bit shifted out on the right, `a & 1`. -/
def shiftedOutRight (a : Byte) : Byte := a &&& 0x01

/-- `8XYE` (R132): `a & 0x80`, or `a >> 7` with `SHL_FLAG_NORMALISE` (D7, log 8). -/
def shiftedOutLeft (a : Byte) : Byte := if Config.shlFlagNormalise then a >>> 7 else a &&& 0x80

/-- `FX1E` (R142): 1 if the unmasked sum passes 0xFFF. -/
def indexOverflow (i : Word) (a : Byte) : Byte := flagOf (a.toNat + i.toNat > 0xFFF)

end Sys2Proof.Machine
end

