-- ==== Sys2Proof/Machine/Operands.lean ====
section
/-! DEFINITION. What instructions take as operands beyond a register or an immediate: effective addresses, decimal
digits, register blocks, sprite pixels, the key a register selects, the address of a glyph. -/

namespace Sys2Proof.Machine

/-- The base of every data access: `I` as an integer, so `I + k` never wraps (42_index_memory.md R140, R56). -/
def State.base (s : State) : Nat := s.i.toNat

/-- The three decimal digits, hundreds first (R144). -/
def bcdDigits (b : Byte) : List Byte :=
  [BitVec.ofNat 8 (b.toNat / 100), BitVec.ofNat 8 (b.toNat / 10 % 10), BitVec.ofNat 8 (b.toNat % 10)]

/-- The registers `V0` to `VX` inclusive (R145). -/
def State.regsThrough (s : State) (x : Reg) : List Byte := s.v.toList.take (x.val + 1)

/-- The address of glyph `b`, `FONT_BASE + 5 * b`: all 8 bits are used (R143; D16, log 9). -/
def glyphAddr (b : Byte) : Word := BitVec.ofNat 16 (Config.fontBase + 5 * b.toNat)

/-- The key a register value selects, if there is one (R161, R162). -/
def keyOf (b : Byte) : Option Key := if h : b.toNat < 16 then some ⟨b.toNat, h⟩ else none

/-- The least pressed key (R164). -/
def State.lowestKey (s : State) : Option Key := (List.finRange 16).find? (fun k => s.keyDown k)

/-- The set pixels of one sprite row, left to right: column `c` is bit `7 - c` (43_display.md R150; D18, log 15). -/
def rowPixels (x0 y : Nat) (row : Byte) : List (Nat × Nat) :=
  ((List.range 8).filter (fun c => row.getLsbD (7 - c))).map (fun c => (x0 + c, y))

/-- The set pixels of a sprite, top row first (R152). The sums are integers, not wrapped (R150). -/
def spritePixels (x0 y0 : Nat) : List Byte → List (Nat × Nat)
  | [] => []
  | row :: rows => rowPixels x0 y0 row ++ spritePixels x0 (y0 + 1) rows

/-- The coordinates as pixels of the grid, or none when one lies outside 64 x 32 (R152; D19, log 12). -/
def onGrid : List (Nat × Nat) → Option (List Pixel)
  | [] => some []
  | c :: cs =>
    if h : c.1 < 64 ∧ c.2 < 32 then
      match onGrid cs with
      | some ps => some (⟨⟨c.1, h.1⟩, ⟨c.2, h.2⟩⟩ :: ps)
      | none => none
    else none

/-- The sprite bytes of a draw of `n` rows: `memory[I .. I + n - 1]` (R152). -/
def State.spriteRows (s : State) (n : Fin 16) : List Byte := s.mem.readBytes s.base n.val

end Sys2Proof.Machine
end

