-- ==== Sys2Proof/Machine/Alu.lean ====
section
/-! DEFINITION. The register and ALU instructions (spec 41_alu.md). Each ends with `pc <- pc + 2`, raises no fault and
touches no memory. -/

namespace Sys2Proof.Machine

/-- `V[x] <- b; pc <- pc + 2`. -/
def State.writeReg (s : State) (x : Reg) (b : Byte) : State := (s.setV x b).advance

/-- The rows with two effects (R121; D6, log 13): the flag is written to VF first, then `V[x]` is written with a value
read from the registers as the flag write left them. -/
def State.flagThenResult (s : State) (flag : Byte) (x : Reg) (result : State → Byte) : State :=
  State.writeReg (s.setV VF flag) x (result (s.setV VF flag))

/-- `6XNN` LD VX, NN (R122). -/
def execLdImm (x : Reg) (nn : Byte) (s : State) : Result := .next (s.writeReg x nn)

/-- `7XNN` ADD VX, NN (R123): modulo 256, VF is not written. -/
def execAddImm (x : Reg) (nn : Byte) (s : State) : Result := .next (s.writeReg x (s.getV x + nn))

/-- `8XY0` LD VX, VY (R124). -/
def execLdReg (x y : Reg) (s : State) : Result := .next (s.writeReg x (s.getV y))

/-- `8XY1` OR VX, VY (R125). -/
def execOrReg (x y : Reg) (s : State) : Result := .next (s.writeReg x (s.getV x ||| s.getV y))

/-- `8XY2` AND VX, VY (R126). -/
def execAndReg (x y : Reg) (s : State) : Result := .next (s.writeReg x (s.getV x &&& s.getV y))

/-- `8XY3` XOR VX, VY (R127). -/
def execXorReg (x y : Reg) (s : State) : Result := .next (s.writeReg x (s.getV x ^^^ s.getV y))

/-- `8XY4` ADD VX, VY (R128). -/
def execAddReg (x y : Reg) (s : State) : Result :=
  .next (s.flagThenResult (carryOut (s.getV x) (s.getV y)) x (fun t => t.getV x + t.getV y))

/-- `8XY5` SUB VX, VY (R129). -/
def execSubReg (x y : Reg) (s : State) : Result :=
  .next (s.flagThenResult (notBorrow (s.getV x) (s.getV y)) x (fun t => t.getV x - t.getV y))

/-- `8XY6` SHR VX (R130): `V[Y]` is neither read nor written (R79). -/
def execShr (x _y : Reg) (s : State) : Result :=
  .next (s.flagThenResult (shiftedOutRight (s.getV x)) x (fun t => t.getV x >>> 1))

/-- `8XY7` SUBN VX, VY (R131). -/
def execSubnReg (x y : Reg) (s : State) : Result :=
  .next (s.flagThenResult (notBorrow (s.getV y) (s.getV x)) x (fun t => t.getV y - t.getV x))

/-- `8XYE` SHL VX (R132): `V[Y]` is neither read nor written (R79). -/
def execShl (x _y : Reg) (s : State) : Result :=
  .next (s.flagThenResult (shiftedOutLeft (s.getV x)) x (fun t => t.getV x <<< 1))

/-- `CXNN` RND VX, NN (R133): the byte is the free value, a fresh one at every execution (D21, log 3). -/
def execRnd (x : Reg) (nn : Byte) (s : State) : Result :=
  .next { (s.writeReg x (Config.freeRnd s.draws &&& nn)) with draws := s.draws + 1 }

end Sys2Proof.Machine
end

