-- ==== Sys2Proof/Syntax.lean ====
section
/-! DEFINITION. The instruction set (spec 30_encoding.md R76): one constructor for each of the 34 rows of the opcode
table, with the row's operand fields at their own widths (R72 to R75). -/

namespace Sys2Proof

/-- An instruction. A register field holds any of the 16 registers (R75); `NN` is a byte, `NNN` a 12-bit byte address,
the row count `N` of `drw` is 0 to 15 (R74). -/
inductive Instr where
  /-- `00E0` CLS (R151). -/
  | cls
  /-- `00EE` RET (R101). -/
  | ret
  /-- `1NNN` JP NNN (R102). -/
  | jp (nnn : Addr)
  /-- `2NNN` CALL NNN (R103). -/
  | call (nnn : Addr)
  /-- `3XNN` SE VX, NN (R104). -/
  | seImm (x : Reg) (nn : Byte)
  /-- `4XNN` SNE VX, NN (R105). -/
  | sneImm (x : Reg) (nn : Byte)
  /-- `5XY0` SE VX, VY (R106). -/
  | seReg (x y : Reg)
  /-- `6XNN` LD VX, NN (R122). -/
  | ldImm (x : Reg) (nn : Byte)
  /-- `7XNN` ADD VX, NN (R123). -/
  | addImm (x : Reg) (nn : Byte)
  /-- `8XY0` LD VX, VY (R124). -/
  | ldReg (x y : Reg)
  /-- `8XY1` OR VX, VY (R125). -/
  | orReg (x y : Reg)
  /-- `8XY2` AND VX, VY (R126). -/
  | andReg (x y : Reg)
  /-- `8XY3` XOR VX, VY (R127). -/
  | xorReg (x y : Reg)
  /-- `8XY4` ADD VX, VY (R128). -/
  | addReg (x y : Reg)
  /-- `8XY5` SUB VX, VY (R129). -/
  | subReg (x y : Reg)
  /-- `8XY6` SHR VX (R130). The field `Y` is decoded and ignored (R79); it is kept so that the word is not lost. -/
  | shr (x y : Reg)
  /-- `8XY7` SUBN VX, VY (R131). -/
  | subnReg (x y : Reg)
  /-- `8XYE` SHL VX (R132). The field `Y` is decoded and ignored (R79). -/
  | shl (x y : Reg)
  /-- `9XY0` SNE VX, VY (R107). -/
  | sneReg (x y : Reg)
  /-- `ANNN` LD I, NNN (R141). -/
  | ldI (nnn : Addr)
  /-- `BNNN` JP V0, NNN (R108). -/
  | jpV0 (nnn : Addr)
  /-- `CXNN` RND VX, NN (R133). -/
  | rnd (x : Reg) (nn : Byte)
  /-- `DXYN` DRW VX, VY, N (R152). -/
  | drw (x y : Reg) (n : Fin 16)
  /-- `EX9E` SKP VX (R161). -/
  | skp (x : Reg)
  /-- `EXA1` SKNP VX (R162). -/
  | sknp (x : Reg)
  /-- `FX07` LD VX, DT (R163). -/
  | ldVxDt (x : Reg)
  /-- `FX0A` LD VX, K (R164). -/
  | ldVxK (x : Reg)
  /-- `FX15` LD DT, VX (R165). -/
  | ldDt (x : Reg)
  /-- `FX18` LD ST, VX (R166). -/
  | ldSt (x : Reg)
  /-- `FX1E` ADD I, VX (R142). -/
  | addI (x : Reg)
  /-- `FX29` LD F, VX (R143). -/
  | ldF (x : Reg)
  /-- `FX33` LD B, VX (R144). -/
  | ldB (x : Reg)
  /-- `FX55` LD [I], VX (R145): `x` is a count, registers V0 to VX. -/
  | stRegs (x : Reg)
  /-- `FX65` LD VX, [I] (R146): `x` is a count, registers V0 to VX. -/
  | ldRegs (x : Reg)
  deriving DecidableEq, Repr

end Sys2Proof
end

