-- ==== Sys2Proof/WellFormed.lean ====
section
/-! DEFINITION. Well-formed instructions: every operand fits the field the encoding gives it (spec 30_encoding.md R72,
R74, R75). The check is stated on the operands as plain numbers with their field widths, so that it can refuse; the
types of `Instr` already make every term pass (`Laws.Fits`), which is the spec's own "all 16 values are legal in
every register field" (R75). -/

namespace Sys2Proof

/-- The four kinds of operand field and no others (R72): register, row count, byte, address. -/
inductive FieldKind where
  | reg      -- `X` or `Y`, 4 bits
  | count    -- `N`, 4 bits
  | byte     -- `NN`, 8 bits
  | addr     -- `NNN`, 12 bits
  deriving DecidableEq, Repr

/-- The width of a field in bits (R72). -/
def FieldKind.width : FieldKind → Nat
  | .reg => 4
  | .count => 4
  | .byte => 8
  | .addr => 12

/-- An operand as a plain number in a field. -/
structure Field where
  kind  : FieldKind
  value : Nat
  deriving DecidableEq, Repr

/-- The value can be written in the field. -/
def Field.fits (f : Field) : Bool := f.value < 2 ^ f.kind.width

/-- All operands fit: the check itself, on any list of operands. -/
def Field.allFit (fs : List Field) : Bool := fs.all Field.fits

/-- The operands of an instruction, in the order the word has them (R73). -/
def Instr.fields : Instr → List Field
  | .cls => []
  | .ret => []
  | .jp nnn => [⟨.addr, nnn.toNat⟩]
  | .call nnn => [⟨.addr, nnn.toNat⟩]
  | .seImm x nn => [⟨.reg, x.val⟩, ⟨.byte, nn.toNat⟩]
  | .sneImm x nn => [⟨.reg, x.val⟩, ⟨.byte, nn.toNat⟩]
  | .seReg x y => [⟨.reg, x.val⟩, ⟨.reg, y.val⟩]
  | .ldImm x nn => [⟨.reg, x.val⟩, ⟨.byte, nn.toNat⟩]
  | .addImm x nn => [⟨.reg, x.val⟩, ⟨.byte, nn.toNat⟩]
  | .ldReg x y => [⟨.reg, x.val⟩, ⟨.reg, y.val⟩]
  | .orReg x y => [⟨.reg, x.val⟩, ⟨.reg, y.val⟩]
  | .andReg x y => [⟨.reg, x.val⟩, ⟨.reg, y.val⟩]
  | .xorReg x y => [⟨.reg, x.val⟩, ⟨.reg, y.val⟩]
  | .addReg x y => [⟨.reg, x.val⟩, ⟨.reg, y.val⟩]
  | .subReg x y => [⟨.reg, x.val⟩, ⟨.reg, y.val⟩]
  | .shr x y => [⟨.reg, x.val⟩, ⟨.reg, y.val⟩]
  | .subnReg x y => [⟨.reg, x.val⟩, ⟨.reg, y.val⟩]
  | .shl x y => [⟨.reg, x.val⟩, ⟨.reg, y.val⟩]
  | .sneReg x y => [⟨.reg, x.val⟩, ⟨.reg, y.val⟩]
  | .ldI nnn => [⟨.addr, nnn.toNat⟩]
  | .jpV0 nnn => [⟨.addr, nnn.toNat⟩]
  | .rnd x nn => [⟨.reg, x.val⟩, ⟨.byte, nn.toNat⟩]
  | .drw x y n => [⟨.reg, x.val⟩, ⟨.reg, y.val⟩, ⟨.count, n.val⟩]
  | .skp x => [⟨.reg, x.val⟩]
  | .sknp x => [⟨.reg, x.val⟩]
  | .ldVxDt x => [⟨.reg, x.val⟩]
  | .ldVxK x => [⟨.reg, x.val⟩]
  | .ldDt x => [⟨.reg, x.val⟩]
  | .ldSt x => [⟨.reg, x.val⟩]
  | .addI x => [⟨.reg, x.val⟩]
  | .ldF x => [⟨.reg, x.val⟩]
  | .ldB x => [⟨.reg, x.val⟩]
  | .stRegs x => [⟨.reg, x.val⟩]
  | .ldRegs x => [⟨.reg, x.val⟩]

/-- An instruction is well-formed: every operand fits its field. -/
def Instr.wf (i : Instr) : Bool := Field.allFit i.fields

end Sys2Proof
end

