-- ==== Sys2Proof/Machine/ControlFlow.lean ====
section
/-! DEFINITION. The control transfer instructions (spec 40_control_flow.md). None touches memory, a general register or
VF (R100); a bad target is found by the next fetch. -/

namespace Sys2Proof.Machine

/-- `00EE` RET (R101): pop, and step over the `2NNN` word whose address was pushed. -/
def execRet (s : State) : Result :=
  match s.pop with
  | some (w, t) => .next (t.setPc (w + 2))
  | none => .next (s.raise .stackUnderflow (encode .ret))

/-- `1NNN` JP (R102). -/
def execJp (nnn : Addr) (s : State) : Result := .next (s.setPc (nnn.setWidth 16))

/-- `2NNN` CALL (R103): the value pushed is the address of the `2NNN` word itself. -/
def execCall (nnn : Addr) (s : State) : Result :=
  match s.push s.pc with
  | some t => .next (t.setPc (nnn.setWidth 16))
  | none => .next (s.raise .stackOverflow (encode (.call nnn)))

/-- `3XNN` SE VX, NN (R104). -/
def execSeImm (x : Reg) (nn : Byte) (s : State) : Result := .next (s.skipIf (s.getV x == nn))

/-- `4XNN` SNE VX, NN (R105). -/
def execSneImm (x : Reg) (nn : Byte) (s : State) : Result := .next (s.skipIf (s.getV x != nn))

/-- `5XY0` SE VX, VY (R106). -/
def execSeReg (x y : Reg) (s : State) : Result := .next (s.skipIf (s.getV x == s.getV y))

/-- `9XY0` SNE VX, VY (R107). -/
def execSneReg (x y : Reg) (s : State) : Result := .next (s.skipIf (s.getV x != s.getV y))

/-- `BNNN` JP V0, NNN (R108): a 16-bit sum, not masked to 12 bits (D29, log 14). -/
def execJpV0 (nnn : Addr) (s : State) : Result :=
  .next (s.setPc ((s.getV 0).setWidth 16 + nnn.setWidth 16))

end Sys2Proof.Machine
end

