-- ==== Sys2Proof/Machine/Display.lean ====
section
/-! DEFINITION. The display instructions (spec 43_display.md). -/

namespace Sys2Proof.Machine

/-- `00E0` CLS (R151): `drawReq` and VF are left as they were (D23, log 16). -/
def execCls (s : State) : Result := .next s.clearDisplay.advance

/-- One set pixel of a draw (R152): VF is 1 once a toggled pixel was on before its toggle, then the toggle. -/
def State.drawPixel (s : State) (p : Pixel) : State :=
  (if s.fb.get p then s.setV VF 1 else s).toggle p

/-- The pixels of a draw, in order (R152). -/
def State.drawPixels (s : State) : List Pixel → State
  | [] => s
  | p :: ps => State.drawPixels (s.drawPixel p) ps

/-- `DXYN` DRW VX, VY, N (R152): the coordinates are read before VF is written; `MemOutOfRange` is tested before
`PixelOutOfRange` (R178), both before any state changes (R175); then VF is cleared and the set bits are toggled row by
row, left to right (D18, log 15). -/
def execDrw (x y : Reg) (n : Fin 16) (s : State) : Result :=
  match checkRange readCheck s.base n.val with
  | some c => .next (s.raise c (encode (.drw x y n)))
  | none =>
    match onGrid (spritePixels (s.getV x).toNat (s.getV y).toNat (s.spriteRows n)) with
    | none => .next (s.raise .pixelOutOfRange (encode (.drw x y n)))
    | some ps => .next ((s.setV VF 0).drawPixels ps).requestDraw.advance

end Sys2Proof.Machine
end

