-- ==== Sys2Proof/Machine/IndexMemory.lean ====
section
/-! DEFINITION. The index register and memory instructions (spec 42_index_memory.md). Each one that completes ends with
`pc <- pc + 2`; a store or load tests all its addresses before it changes anything (R140, R175). -/

namespace Sys2Proof.Machine

/-- `ANNN` LD I, NNN (R141). -/
def execLdI (nnn : Addr) (s : State) : Result := .next (s.setI (nnn.setWidth 16)).advance

/-- `FX1E` ADD I, VX (R142): VF first, then the sum with the register as the flag write left it (R121), masked (D15). -/
def execAddI (x : Reg) (s : State) : Result :=
  let t := s.setV VF (indexOverflow s.i (s.getV x))
  .next (t.setI (t.i + (t.getV x).setWidth 16)).advance

/-- `FX29` LD F, VX (R143). -/
def execLdF (x : Reg) (s : State) : Result := .next (s.setI (glyphAddr (s.getV x))).advance

/-- A store of consecutive bytes at `I` (R140, R175): all addresses tested first, then all bytes written. -/
def storeAtI (op : Word) (bytes : List Byte) (s : State) : Result :=
  match checkRange writeCheck s.base bytes.length with
  | some c => .next (s.raise c op)
  | none => .next (s.setMem (s.mem.writeBytes s.base bytes)).advance

/-- `FX33` LD B, VX (R144). -/
def execLdB (x : Reg) (s : State) : Result := storeAtI (encode (.ldB x)) (bcdDigits (s.getV x)) s

/-- `FX55` LD [I], VX (R145): `I` is unchanged. -/
def execStRegs (x : Reg) (s : State) : Result := storeAtI (encode (.stRegs x)) (s.regsThrough x) s

/-- `FX65` LD VX, [I] (R146): `I` is unchanged, no register is written on a fault. -/
def execLdRegs (x : Reg) (s : State) : Result :=
  match checkRange readCheck s.base (x.val + 1) with
  | some c => .next (s.raise c (encode (.ldRegs x)))
  | none => .next (s.loadRegs 0 (s.mem.readBytes s.base (x.val + 1))).advance

end Sys2Proof.Machine
end

