-- ==== Sys2Proof/Machine/KeypadTimer.lean ====
section
/-! DEFINITION. The keypad and timer instructions (spec 44_keypad_timer_instr.md). None writes `keys`: the key policy is
level-triggered (R160, R188; D8, log 10). -/

namespace Sys2Proof.Machine

/-- `EX9E` SKP VX (R161). -/
def execSkp (x : Reg) (s : State) : Result :=
  match keyOf (s.getV x) with
  | some k => .next (s.skipIf (s.keyDown k))
  | none => .next (s.raise .keyIndexOutOfRange (encode (.skp x)))

/-- `EXA1` SKNP VX (R162). -/
def execSknp (x : Reg) (s : State) : Result :=
  match keyOf (s.getV x) with
  | some k => .next (s.skipIf (!s.keyDown k))
  | none => .next (s.raise .keyIndexOutOfRange (encode (.sknp x)))

/-- `FX07` LD VX, DT (R163). -/
def execLdVxDt (x : Reg) (s : State) : Result := .next (s.setV x s.dt).advance

/-- `FX0A` LD VX, K (R164): the least pressed key, or nothing at all changes and `pc` stays (D28). -/
def execLdVxK (x : Reg) (s : State) : Result :=
  match s.lowestKey with
  | some k => .next (s.setV x (BitVec.ofNat 8 k.val)).advance
  | none => .next s

/-- `FX15` LD DT, VX (R165). -/
def execLdDt (x : Reg) (s : State) : Result := .next (s.setDt (s.getV x)).advance

/-- `FX18` LD ST, VX (R166): the write raises no sound trigger. -/
def execLdSt (x : Reg) (s : State) : Result := .next (s.setSt (s.getV x)).advance

end Sys2Proof.Machine
end

