-- ==== Sys2Proof/Machine/Cpu.lean ====
section
/-! DEFINITION. The event `Step` (spec 30_encoding.md R71): fetch, decode, execute one instruction; and what the outside
sees of it (00_scope.md R6, R7). -/

namespace Sys2Proof.Machine

/-- The word at `pc`, big-endian (R52), read from memory as it stands; none where `pc > 0xFFE` (R53). -/
def State.fetch (s : State) : Option Word :=
  if s.pc.toNat > 0xFFE then none
  else some (wordOfBytes (s.mem.read s.pc.toNat) (s.mem.read (s.pc.toNat + 1)))

/-- Fetch, decode and execute, on a core that is not halted, in the order of R71. The first `Step` after `Reset` closes
the load window (R205, log 4). -/
def State.runOne (s : State) : Result :=
  match s.fetch with
  | none => .next (s.raise .fetchOutOfRange 0x0000)
  | some op =>
    match decode op with
    | .error _ => .next (s.raise .unknownOpcode op)
    | .ok i => exec i s

/-- The event `Step`: nothing at all on a halted core (R71, R174). -/
def cpuStep (s : State) : Result :=
  if s.halted then .next s else s.closeLoad.runOne

/-- The output `waiting_key` (R7, R164): the next `Step` would wait. Not stored (R41). -/
def waitingKey (s : State) : Bool :=
  !s.halted &&
    match s.fetch with
    | some op =>
      match decode op with
      | .ok (.ldVxK _) => s.lowestKey.isNone
      | _ => false
    | none => false

/-- The result of a `Step` (R6). -/
inductive StepResult where
  | advanced
  | waiting
  | faulted (c : Cause)
  deriving DecidableEq, Repr

/-- The result of the `Step` that leads from one state to another (R6, R171, R174). -/
def stepResult (before after : State) : StepResult :=
  if after.halted then .faulted after.fault.cause
  else if waitingKey before then .waiting
  else .advanced

end Sys2Proof.Machine
end

