-- ==== Sys2Proof/Machine/Events.lean ====
section
/-! DEFINITION. The host's and the timer's events (spec 60_exceptions.md R180 to R193, 70_reset_and_hazards.md R200 to
R212), the results they return, and the performance of one event. On a halted core every event but `Reset` leaves all
state unchanged (R174). -/

namespace Sys2Proof.Machine

/-- A counter one `Tick` later: down by one, with a floor at 0 (R181). -/
def countDown (b : Byte) : Byte := if b = 0 then 0 else b - 1

/-- `Tick` (R181). -/
def tick (s : State) : State :=
  if s.halted then s else { s with dt := countDown s.dt, st := countDown s.st }

/-- The result of a `Tick` (R182; D22, log 17): 1 where it takes ST from 2 to 1. Not stored (R42). -/
def soundTrigger (s : State) : Bool := !s.halted && s.st == 2

/-- `SetKey(code, pressed)` (R187). -/
def setKey (code : Key) (pressed : Bool) (s : State) : State :=
  if s.halted then s else s.putKey code pressed

/-- `Flush` (R191; D23, log 16): the log is drained, both request flags are cleared, `fb` is kept. -/
def flush (s : State) : State :=
  if s.halted then s else { s with log := [], drawReq := false, clearReq := false }

/-- What `Flush` returns (R191, R193): the log and the two flags as they stood. -/
structure FlushResult where
  log      : List LogEntry
  drawReq  : Bool
  clearReq : Bool
  deriving DecidableEq, Repr

/-- The result of a `Flush` in a state (R191). -/
def flushResult (s : State) : FlushResult := ⟨s.log, s.drawReq, s.clearReq⟩

/-- `LoadProgram(bytes)` is accepted: not halted, inside the load window, not longer than 3584 bytes (R204 to R207). -/
def loadAccepted (bytes : List Byte) (s : State) : Bool :=
  !s.halted && s.loadOpen && bytes.length ≤ Config.maxImage

/-- `LoadProgram(bytes)` (R204, R206; D25, log 4): the image is copied to 0x200 upward and the window closes; a refused
load changes nothing. -/
def loadProgram (bytes : List Byte) (s : State) : State :=
  if loadAccepted bytes s then
    (s.setMem (s.mem.writeBytes Config.progBase bytes)).closeLoad
  else s

/-- The result of `LoadProgram` (R6). -/
inductive LoadResult where
  | ok
  | loadError
  deriving DecidableEq, Repr

/-- The result of `LoadProgram(bytes)` in a state (R204, R206, R174). -/
def loadResult (bytes : List Byte) (s : State) : LoadResult :=
  if loadAccepted bytes s then .ok else .loadError

/-- One event, performed atomically (R4, R5). -/
def performEvent (e : Event) (s : State) : Result :=
  match e with
  | .reset => .next s.resetCore
  | .loadProgram bytes => .next (loadProgram bytes s)
  | .step => cpuStep s
  | .tick => .next (tick s)
  | .setKey code pressed => .next (setKey code pressed s)
  | .flush => .next (flush s)

/-- The next event: the oldest one scheduled, or `Step` when none is (log 2). -/
def State.nextEvent (s : State) : Event := s.schedule.headD .step

/-- The schedule with its oldest event taken. -/
def State.takeEvent (s : State) : State := { s with schedule := s.schedule.tail }

/-- One outer iteration of the reference driver (R210): for each element of the argument the key inputs and then one
`Step`, then one `Tick`, then one `Flush`. `INSTR_PER_TICK` is the argument's length (OPEN, D3). -/
def driverIteration (keyInputs : List (List (Key × Bool))) : List Event :=
  keyInputs.flatMap (fun ks => ks.map (fun k => .setKey k.1 k.2) ++ [.step]) ++ [.tick, .flush]

end Sys2Proof.Machine
end

