-- ==== Sys2Proof/Machine/Step.lean ====
section
/-! DEFINITION. One step of the machine: the next event is performed (spec 00_scope.md R4, R5). -/

namespace Sys2Proof.Machine

/-- One step: the oldest scheduled event, or `Step` when the schedule is empty. -/
def step (s : State) : Host.Outcome State Fault Refusal := performEvent s.nextEvent s.takeEvent

/-- The state with an instruction stored where `step` fetches the next one, so that the next step runs it: the two bytes
at `pc`, high byte first (R52), nothing scheduled before it, the core not halted, the load window closed as a
`LoadProgram` leaves it (R205), and `pc` at 0x200 where it points outside the memory. Log 5. -/
def State.withFetchWord (s : State) (nbits w : Nat) : State :=
  let a := if s.pc.toNat > 0xFFE then Config.progBase else s.pc.toNat
  { s with
    pc := BitVec.ofNat 16 a
    mem := s.mem.writeBytes a (bytesOfWord (BitVec.ofNat 16 (w % 2 ^ nbits)))
    fault := if s.halted then .clear else s.fault
    loadOpen := false
    schedule := [] }

end Sys2Proof.Machine
end

