-- ==== Sys2Proof/Safety.lean ====
section
/-! DEFINITION. What claims are stated in: a running core, the invariants of spec 10_state.md R45 and R25, reachability,
and the renderer's picture of R36. -/

namespace Sys2Proof.Machine

/-- The core runs: no fault is recorded (R38, R174). -/
abbrev State.Running (s : State) : Prop := s.fault.cause = .noFault

/-- The invariants of R45 that the types of State do not already carry, `I ≤ 0xFFF` (decision D15, log 14) and every byte below
0x200 at its reset value (decision D13, log 11); and the memory list's canonical form, which is the model's own (log 19). (`0 ≤ sp ≤ 16`, the timers' range, the log's coordinates and `fault.cause ≤ 8` are
carried by the types.) -/
structure State.Inv (s : State) : Prop where
  index : s.i.toNat ≤ 0xFFF
  memory : s.mem.wf = true
  low : ∀ a, a < 0x200 → s.mem.read a = Memory.unlisted a

/-- R25: `pc` never passes 0x10FE, because every pushed address was fetched from, so it is at most 0xFFE. -/
structure State.PcInv (s : State) : Prop where
  pc : s.pc.toNat ≤ 0x10FE
  stack : ∀ k : Fin 16, s.stack[k].toNat ≤ 0xFFE

/-- The states of runs: from reset with any sequence of events scheduled (R44, R211). -/
inductive Reachable : State → Prop where
  | reset (events : List Event) : Reachable { State.reset with schedule := events }
  | step {s t : State} : Reachable s → Machine.step s = .next t → Reachable t

/-- A run of `k` steps during which no fault is recorded. -/
def SafeRun : Nat → State → Prop
  | 0, s => s.Running
  | k + 1, s => s.Running ∧ ∃ t, Machine.step s = .next t ∧ SafeRun k t

/-- The renderer applies one update of the log (R193). -/
def applyEntry (g : Framebuffer) (e : LogEntry) : Framebuffer := g.put e.pixel e.v

/-- The renderer's picture after a `Flush` in `s`, from the picture `g` it shows (R36): blanked first where `clearReq`,
then the log applied in order. -/
def rendered (g : Framebuffer) (s : State) : Framebuffer :=
  s.log.foldl applyEntry (if s.clearReq then Framebuffer.blank else g)

end Sys2Proof.Machine
end

