-- ==== Sys2Proof/Certificates/Slice0/Obligations.lean ====
section
/-! DEFINITION. The statements for the provers, from the numbered rules of `spec/`. Where a statement rests on a decision
the spec marks as its own (D<n>), its docstring says so and names the log entry. -/

open Sys2Proof Sys2Proof.Machine

namespace Sys2Proof.Claims

/-- The registers an instruction may write when it does not fault (R21, R22). -/
def mayWrite : Instr → Reg → Bool
  | .cls, _ => false
  | .ret, _ => false
  | .jp _, _ => false
  | .call _, _ => false
  | .seImm _ _, _ => false
  | .sneImm _ _, _ => false
  | .seReg _ _, _ => false
  | .sneReg _ _, _ => false
  | .ldImm x _, r => r == x
  | .addImm x _, r => r == x
  | .ldReg x _, r => r == x
  | .orReg x _, r => r == x
  | .andReg x _, r => r == x
  | .xorReg x _, r => r == x
  | .addReg x _, r => r == x || r == VF
  | .subReg x _, r => r == x || r == VF
  | .shr x _, r => r == x || r == VF
  | .subnReg x _, r => r == x || r == VF
  | .shl x _, r => r == x || r == VF
  | .ldI _, _ => false
  | .jpV0 _, _ => false
  | .rnd x _, r => r == x
  | .drw _ _ _, r => r == VF
  | .skp _, _ => false
  | .sknp _, _ => false
  | .ldVxDt x, r => r == x
  | .ldVxK x, r => r == x
  | .ldDt _, _ => false
  | .ldSt _, _ => false
  | .addI _, r => r == VF
  | .ldF _, _ => false
  | .ldB _, _ => false
  | .stRegs _, _ => false
  | .ldRegs x, r => r ≤ x

/-- The bytes an instruction stores to, as start and length, at the base address its meaning uses (R51, R140): `FX33`
and `FX55` store, no other instruction does. -/
def storedBytes (s : State) : Instr → Option (Nat × Nat)
  | .ldB _ => some (s.base, 3)
  | .stRegs x => some (s.base, x.val + 1)
  | _ => none

/-- The instructions whose only next `pc` is `pc + 2` when they complete (R24). -/
def isPlain : Instr → Bool
  | .ret | .jp _ | .call _ | .jpV0 _ | .ldVxK _ => false
  | .seImm _ _ | .sneImm _ _ | .seReg _ _ | .sneReg _ _ | .skp _ | .sknp _ => false
  | _ => true

/-- The skips (R24). -/
def isSkip : Instr → Bool
  | .seImm _ _ | .sneImm _ _ | .seReg _ _ | .sneReg _ _ | .skp _ | .sknp _ => true
  | _ => false

/-- Sprite bit: column `c` of row `r` of the sprite at `I` (R150): bit `7 - c` of `memory[I + r]`. -/
def spriteBit (s : State) (r c : Nat) : Bool := (s.mem.read (s.i.toNat + r)).getLsbD (7 - c)

/-- The draw of `n` rows with registers `x`, `y` toggles the pixel `p` (R150, R152). -/
def covers (s : State) (x y : Reg) (n : Fin 16) (p : Pixel) : Prop :=
  ∃ r c, r < n.val ∧ c < 8 ∧ spriteBit s r c = true ∧
    p.x.val = (s.getV x).toNat + c ∧ p.y.val = (s.getV y).toNat + r

/-- The coordinates a draw toggles, in the order of R152: row by row from the top, left to right in a row. -/
def toggledInOrder (s : State) (x y : Reg) (n : Fin 16) : List (Nat × Nat) :=
  (List.range n.val).flatMap fun r =>
    ((List.range 8).filter fun c => spriteBit s r c).map fun c => ((s.getV x).toNat + c, (s.getV y).toNat + r)

/-- Every sprite byte of the draw can be read (R56, R152). -/
def spriteReadable (s : State) (n : Fin 16) : Prop := n.val = 0 ∨ s.i.toNat + n.val ≤ 0x1000

/-- Every set bit of the draw lands on the grid (R152). -/
def spriteOnGrid (s : State) (x y : Reg) (n : Fin 16) : Prop :=
  ∀ r c, r < n.val → c < 8 → spriteBit s r c = true → (s.getV x).toNat + c < 64 ∧ (s.getV y).toNat + r < 32

end Sys2Proof.Claims

open Sys2Proof.Claims

/-! ### Encoding (30_encoding.md) -/

/-- Decoding the encoding of a well-formed instruction gives it back (R72 to R76): no operand bit is dropped. -/
def Obligations.DecodeOfEncodeIsTheInstruction : Prop :=
  ∀ i : Instr, i.wf = true →
    decode (encode i) = .ok i ∧ ∀ rest, decodeBytes (bytesOfWord (encode i) ++ rest) = .ok (i, rest)

/-- Encoding what a word decodes to gives the word back: every word has one meaning (R76). -/
def Obligations.EncodeOfDecodeIsTheWord : Prop :=
  ∀ (op : Word) (i : Instr), decode op = .ok i → encode i = op

/-- The decoder follows the table of R76: a decoded word selects its instruction's row and no other; a rejected one
selects none, and the rejection names the word (R77). Strict matching is the spec's decision D26. -/
def Obligations.DecodeFollowsTheOpcodeTable : Prop :=
  ∀ op : Word,
    (∀ i, decode op = .ok i →
      rowOf i ∈ opcodeTable ∧ (rowOf i).selects op = true ∧ ∀ r ∈ opcodeTable, r.selects op = true → r = rowOf i) ∧
    (∀ e, decode op = .error e → e = .unknownOpcode op ∧ ∀ r ∈ opcodeTable, r.selects op = false)

/-- Words written out from the patterns of R76 decode to the instructions they stand for, one for each family. -/
def Obligations.SampleWordsDecode : Prop :=
  decode 0b0000000011100000#16 = .ok .cls ∧
  decode 0b0010001000010100#16 = .ok (.call 0x214) ∧
  decode 0b1000000111110101#16 = .ok (.subReg 1 15) ∧
  decode 0b1101000100100011#16 = .ok (.drw 1 2 3) ∧
  decode 0b1110101010100001#16 = .ok (.sknp 10) ∧
  decode 0b1111001101010101#16 = .ok (.stRegs 3)

/-! ### Steps and events -/

/-- A step performs the oldest scheduled event, and `Step` when none is scheduled (R4, R5). The schedule is the model's
own field (log 2). -/
def Obligations.StepPerformsTheNextEvent : Prop :=
  (∀ (s : State) (e : Event) (rest : List Event),
    s.schedule = e :: rest → step s = performEvent e { s with schedule := rest }) ∧
  (∀ s : State, s.schedule = [] → step s = performEvent .step s)

/-- A `Step` of a running core runs the instruction the two bytes at `pc` decode to, big-endian (R52, R71). Around it the
model only takes the event from the schedule (log 2) and closes the load window (R205, log 4). -/
def Obligations.StepRunsTheDecodedInstruction : Prop :=
  ∀ (s : State) (i : Instr), s.nextEvent = .step → s.Running → s.pc.toNat ≤ 0xFFE →
    decode (s.mem.read s.pc.toNat ++ s.mem.read (s.pc.toNat + 1)) = .ok i →
    step s = exec i { s with schedule := s.schedule.tail, loadOpen := false }

/-- A `Step` with `pc > 0xFFE` raises `FetchOutOfRange` with the word 0x0000 (R53, R171, R172): decisions D14, D9. Around the
fault the model only takes the event from the schedule (log 2, DESIGN CHOICE) and closes the load window (R205; the bit is
log 4, DEDUCED). -/
def Obligations.FetchOutOfRangeIsAFault : Prop :=
  ∀ s : State, s.nextEvent = .step → s.Running → 0xFFE < s.pc.toNat →
    step s = .next { s with
      schedule := s.schedule.tail, loadOpen := false, fault := ⟨.fetchOutOfRange, 0x0000, s.pc⟩ }

/-- A `Step` that fetches a word of no row raises `UnknownOpcode` with the word and its address (R77, R171, R172): the record
is the spec's decision D9. Around the fault the model only takes the event from the schedule (log 2, DESIGN CHOICE) and
closes the load window (R205; the bit is log 4, DEDUCED); nothing else changes. -/
def Obligations.UnknownOpcodeIsAFault : Prop :=
  ∀ (s : State) (e : DecodeError), s.nextEvent = .step → s.Running → s.pc.toNat ≤ 0xFFE →
    decode (s.mem.read s.pc.toNat ++ s.mem.read (s.pc.toNat + 1)) = .error e →
    step s = .next { s with
      schedule := s.schedule.tail, loadOpen := false,
      fault := ⟨.unknownOpcode, s.mem.read s.pc.toNat ++ s.mem.read (s.pc.toNat + 1), s.pc⟩ }

/-- On a halted core every event but `Reset` leaves all state unchanged, whatever it is, and the results are those of
R174: decision D9. -/
def Obligations.HaltedCoreIgnoresEveryEventButReset : Prop :=
  ∀ s : State, ¬ s.Running →
    (∀ e : Event, e ≠ .reset → performEvent e s = .next s) ∧
    stepResult s s = .faulted s.fault.cause ∧ soundTrigger s = false ∧
    flushResult s = ⟨s.log, s.drawReq, s.clearReq⟩ ∧ ∀ bytes, loadResult bytes s = .loadError

/-- Faults are precise (R171, R172, R175; decision D9): when a `Step` of a running core faults, the state after it is
the state before it with the fault record written, for every instruction and every cause; the record holds `pc` and the
fetched word, 0x0000 where none was fetched. Beside the record the model only takes the event from the schedule (log 2,
DESIGN CHOICE) and closes the load window (R205; the bit is log 4, DEDUCED). -/
def Obligations.FaultsArePrecise : Prop :=
  ∀ s t : State, s.nextEvent = .step → s.Running → step s = .next t → ¬ t.Running →
    ∃ (c : Cause) (op : Word), c ≠ .noFault ∧
      t = { s with schedule := s.schedule.tail, loadOpen := false, fault := ⟨c, op, s.pc⟩ } ∧
      (0xFFE < s.pc.toNat → c = .fetchOutOfRange ∧ op = 0x0000) ∧
      (s.pc.toNat ≤ 0xFFE → op = s.mem.read s.pc.toNat ++ s.mem.read (s.pc.toNat + 1))

/-- There is no state from which no event is accepted (93_implementation_defined.md §2): every step answers a next
state. -/
def Obligations.EveryStepAnswersANextState : Prop :=
  ∀ s : State, ∃ t : State, step s = .next t

/-- `Tick` (R181, R182): both counters go down by one with a floor at 0, nothing else changes, and the trigger is raised
exactly where ST goes from 2 to 1 (decision D22, log 17). -/
def Obligations.TickCountsBothTimersDown : Prop :=
  ∀ s : State, s.Running →
    ∃ d t : Byte, performEvent .tick s = .next { s with dt := d, st := t } ∧
      d.toNat = s.dt.toNat - 1 ∧ t.toNat = s.st.toNat - 1 ∧
      (soundTrigger s = true ↔ s.st.toNat = 2 ∧ t.toNat = 1)

/-- A sound timer holding `v` raises the trigger at the `(v - 1)`-th following `Tick` and at no other (R166, R182;
decision D22, log 17). -/
def Obligations.SoundTriggerComesAtOneTick : Prop :=
  ∀ (s : State) (k : Nat), s.Running → (soundTrigger (tick^[k] s) = true ↔ s.st.toNat = k + 2)

/-- `SetKey(code, pressed)` writes that one key and nothing else (R187; the 4-bit code is decision D31). -/
def Obligations.SetKeyWritesOneKey : Prop :=
  ∀ (s : State) (c : Key) (p : Bool), s.Running →
    ∃ ks, performEvent (.setKey c p) s = .next { s with keys := ks } ∧
      ∀ k : Key, ks[k] = if k = c then p else s.keyDown k

/-- `Flush` returns the log and the flags as they stand, then empties and clears them; `fb` is not changed (R191;
clearing the flags is decision D23, log 16). -/
def Obligations.FlushDrainsTheLog : Prop :=
  ∀ s : State, s.Running →
    flushResult s = ⟨s.log, s.drawReq, s.clearReq⟩ ∧
    performEvent .flush s = .next { s with log := [], drawReq := false, clearReq := false } ∧
    flushResult (flush s) = ⟨[], false, false⟩

/-- `LoadProgram` inside its window copies the image to 0x200 upward and nothing else, and closes the window; refused, it
changes nothing and returns `LoadError` (R204 to R206; decision D25, log 4). -/
def Obligations.LoadProgramCopiesTheImage : Prop :=
  ∀ (s : State) (bytes : List Byte), s.Running →
    (s.loadOpen = true ∧ bytes.length ≤ 3584 →
      loadResult bytes s = .ok ∧
      ∃ m, performEvent (.loadProgram bytes) s = .next { s with mem := m, loadOpen := false } ∧
        (∀ k, (h : k < bytes.length) → m.read (0x200 + k) = bytes[k]) ∧
        ∀ a, a < 0x200 ∨ 0x200 + bytes.length ≤ a → m.read a = s.mem.read a) ∧
    (s.loadOpen = false ∨ 3584 < bytes.length →
      loadResult bytes s = .loadError ∧ performEvent (.loadProgram bytes) s = .next s)

/-- R207: an image of exactly 3584 bytes succeeds and occupies memory through 0xFFF; one byte more fails and writes
nothing. -/
def Obligations.LoadBoundaryIsExact : Prop :=
  ∀ (s : State) (bytes : List Byte), s.Running → s.loadOpen = true →
    (bytes.length = 3584 → loadResult bytes s = .ok ∧
      ∃ t, performEvent (.loadProgram bytes) s = .next t ∧
        ∀ k, (h : k < bytes.length) → t.mem.read (0x200 + k) = bytes[k]) ∧
    (bytes.length = 3585 → loadResult bytes s = .loadError ∧ performEvent (.loadProgram bytes) s = .next s)

/-- `Reset` gives every piece of the core's state the value of R43, in any state, halted or not (R200). `pc` is 0x200 by
decision D5 (log 7), the font bytes are the parameter `FONT` (D17, log 6) at `FONT_BASE` (D16, log 9), the open load window is
a bit the model reads from R205 (log 4); the schedule and the free bytes' counter are the model's (logs 2, 3). -/
def Obligations.ResetWritesEverything : Prop :=
  ∀ s : State, ∃ t : State, performEvent .reset s = .next t ∧
    (∀ r : Reg, t.getV r = 0) ∧ t.i = 0 ∧ t.pc = 0x200 ∧ (∀ k : Fin 16, t.stack[k] = 0) ∧ t.sp = 0 ∧
    t.dt = 0 ∧ t.st = 0 ∧ (∀ k : Key, t.keyDown k = false) ∧ (∀ p : Pixel, t.fb.get p = false) ∧
    t.log = [] ∧ t.drawReq = false ∧ t.clearReq = false ∧ t.fault = ⟨.noFault, 0, 0⟩ ∧ t.loadOpen = true ∧
    (∀ k, (h : k < 80) → t.mem.read (0x050 + k) = Config.font[k]'h) ∧
    (∀ a, a < 0x050 ∨ 0x0A0 ≤ a → t.mem.read a = 0)

/-! ### Invariants and whole-machine rules -/

/-- Kept by every step, whatever the event: the invariants of R45 `I ≤ 0xFFF`, which rests on decision D15 (log 14), and every
byte below 0x200 at its reset value, which rests on decision D13 (log 11); and, the model's own and no rule of the spec, the
memory list in its canonical form (log 19, DESIGN CHOICE). -/
def Obligations.StepKeepsTheInvariants : Prop :=
  ∀ s t : State, s.Inv → step s = .next t → t.Inv

/-- R25: `pc` never passes 0x10FE and every stacked address stays at most 0xFFE, kept by every step (decisions D14, D29,
log 14). -/
def Obligations.StepKeepsPcInRange : Prop :=
  ∀ s t : State, s.PcInv → step s = .next t → t.PcInv

/-- The state after reset meets both invariants, whatever is scheduled: those of R45 and R25 (`pc` is 0x200 by decision D5,
log 7), and the memory list's canonical form, which is the model's own and no rule of the spec (log 19, DESIGN CHOICE). -/
def Obligations.ResetMeetsTheInvariants : Prop :=
  ∀ events : List Event,
    State.Inv { State.reset with schedule := events } ∧ State.PcInv { State.reset with schedule := events }

/-- The font and the reserved bytes are never written: no step but `Reset` changes a byte below 0x200, from any state
(R28, R57, R59; decision D13, log 11). -/
def Obligations.LowMemoryIsNeverWritten : Prop :=
  ∀ s t : State, step s = .next t → s.nextEvent ≠ .reset →
    ∀ a, a < 0x200 → t.mem.read a = s.mem.read a

/-- R36: a renderer that showed a picture from which the log leads to `fb` is kept so by every step but `Flush` and
`Reset`, and after a `Flush` its picture is `fb` and stays in step with it (decision D23, log 16). -/
def Obligations.RendererPictureFollowsFramebuffer : Prop :=
  ∀ (g : Framebuffer) (s t : State), rendered g s = s.fb → step s = .next t →
    (s.nextEvent ≠ .flush → s.nextEvent ≠ .reset → rendered g t = t.fb) ∧
    (s.nextEvent = .flush → rendered (rendered g s) t = t.fb)

/-- R24: how `pc` changes, for every instruction on a running core: the skips by 2 or 4, `1NNN` and `2NNN` to `NNN`,
`BNNN` to `V0 + NNN`, `00EE` to the popped entry plus 2, a waiting `FX0A` not at all, every other by 2; a fault leaves it;
and no event other than `Step` and `Reset` writes it. -/
def Obligations.PcChangesOnlyInTheGivenForms : Prop :=
  (∀ (i : Instr) (s t : State), s.Running → exec i s = .next t →
    (¬ t.Running → t.pc = s.pc) ∧
    (t.Running →
      (isPlain i = true → t.pc = s.pc + 2) ∧
      (isSkip i = true → t.pc = s.pc + 2 ∨ t.pc = s.pc + 4) ∧
      (∀ nnn, i = .jp nnn ∨ i = .call nnn → t.pc = nnn.setWidth 16) ∧
      (∀ nnn, i = .jpV0 nnn → t.pc = (s.getV 0).setWidth 16 + nnn.setWidth 16) ∧
      (i = .ret → ∃ h : t.sp.val < 16, t.pc = s.stack[t.sp.val] + 2) ∧
      (∀ x, i = .ldVxK x → (∃ k, s.keyDown k = true) → t.pc = s.pc + 2) ∧
      (∀ x, i = .ldVxK x → (∀ k, s.keyDown k = false) → t.pc = s.pc))) ∧
  (∀ (e : Event) (s t : State), e ≠ .step → e ≠ .reset → performEvent e s = .next t → t.pc = s.pc)

/-- The registers' frame, for every instruction (R21, R22): a register outside the instruction's written set keeps its
value. -/
def Obligations.OtherRegistersKeepTheirValue : Prop :=
  ∀ (i : Instr) (s t : State), exec i s = .next t → ∀ r : Reg, mayWrite i r = false → t.getV r = s.getV r

/-- The memory's frame, for every instruction (R51): a form that stores nothing leaves every byte as it was, a form that
stores leaves every byte outside the stored ones, at the base its meaning computes. -/
def Obligations.OtherMemoryKeepsItsValue : Prop :=
  ∀ (i : Instr) (s t : State), exec i s = .next t →
    (storedBytes s i = none → ∀ a, t.mem.read a = s.mem.read a) ∧
    (∀ b n, storedBytes s i = some (b, n) → ∀ a, a < b ∨ b + n ≤ a → t.mem.read a = s.mem.read a)

/-- The frame of all other state, for every instruction (R26, R30, R31, R32, R33 to R35, R37, R38): each piece is written
by the instructions the rules name and by no other. That no instruction writes a key is decision D8 (log 10); which of `00E0`
and `DXYN` writes which request flag is decision D23 (log 16); the load window's bit is log 4 (DEDUCED), the schedule log 2 and
the free bytes' counter log 3 (DESIGN CHOICE: the model's own fields). -/
def Obligations.OtherStateKeepsItsValue : Prop :=
  ∀ (i : Instr) (s t : State), exec i s = .next t →
    ((∀ n, i ≠ .ldI n) → (∀ x, i ≠ .addI x) → (∀ x, i ≠ .ldF x) → t.i = s.i) ∧
    ((∀ n, i ≠ .call n) → t.stack = s.stack) ∧
    ((∀ n, i ≠ .call n) → i ≠ .ret → t.sp = s.sp) ∧
    ((∀ x, i ≠ .ldDt x) → t.dt = s.dt) ∧
    ((∀ x, i ≠ .ldSt x) → t.st = s.st) ∧
    t.keys = s.keys ∧
    (i ≠ .cls → (∀ x y n, i ≠ .drw x y n) → t.fb = s.fb ∧ t.log = s.log) ∧
    ((∀ x y n, i ≠ .drw x y n) → t.drawReq = s.drawReq) ∧
    (i ≠ .cls → t.clearReq = s.clearReq) ∧
    (i ≠ .ret → (∀ n, i ≠ .call n) → (∀ x y n, i ≠ .drw x y n) → (∀ x, i ≠ .skp x) → (∀ x, i ≠ .sknp x) →
      (∀ x, i ≠ .ldB x) → (∀ x, i ≠ .stRegs x) → (∀ x, i ≠ .ldRegs x) → t.fault = s.fault) ∧
    t.loadOpen = s.loadOpen ∧ t.schedule = s.schedule ∧ ((∀ x n, i ≠ .rnd x n) → t.draws = s.draws)

/-- No instruction reads ST, and only `FX07` reads DT (R32, R167): another timer value changes nothing else. -/
def Obligations.TimersInfluenceNothingElse : Prop :=
  ∀ (i : Instr) (s t : State) (b : Byte), exec i s = .next t →
    ((∀ x, i ≠ .ldSt x) → exec i { s with st := b } = .next { t with st := b }) ∧
    ((∀ x, i ≠ .ldDt x) → (∀ x, i ≠ .ldVxDt x) → exec i { s with dt := b } = .next { t with dt := b })

/-- No instruction reads the change log or the request flags (R34, R35): other values of them lead to a next state that
differs in nothing but them. -/
def Obligations.DisplayQueueInfluencesNothingElse : Prop :=
  ∀ (i : Instr) (s t : State) (l : List LogEntry) (d c : Bool), exec i s = .next t →
    ∃ (l' : List LogEntry) (d' c' : Bool),
      exec i { s with log := l, drawReq := d, clearReq := c } =
        .next { t with log := l', drawReq := d', clearReq := c' }

/-! ### Control transfer (40_control_flow.md) -/

/-- R102: `1NNN` sets `pc` to `NNN`, any `NNN`, and changes nothing else; at its own address it changes nothing at all; after
`NNN = 0xFFF` the next `Step` raises `FetchOutOfRange` (what its record holds is decision D9) and closes the load window (R205;
the bit is log 4, DEDUCED). -/
def Obligations.JumpSetsPc : Prop :=
  ∀ (nnn : Addr) (s : State),
    decode (formatA 0x1#4 nnn) = .ok (.jp nnn) ∧
    exec (.jp nnn) s = .next { s with pc := nnn.setWidth 16 } ∧
    (s.pc = nnn.setWidth 16 → exec (.jp nnn) s = .next s) ∧
    (nnn = 0xFFF → s.Running →
      ∃ t, exec (.jp nnn) s = .next t ∧
        performEvent .step t = .next { t with loadOpen := false, fault := ⟨.fetchOutOfRange, 0x0000, 0x0FFF⟩ })

/-- `2NNN` (R103) with a free entry pushes the address of the `2NNN` word itself, moves `sp` up by one and jumps. The
bound is decision D11. -/
def Obligations.CallPushesItsOwnAddress : Prop :=
  ∀ (nnn : Addr) (s : State), s.sp.val < 16 →
    ∃ (k : Vector Word 16) (p : Fin 17),
      exec (.call nnn) s = .next { s with stack := k, sp := p, pc := nnn.setWidth 16 } ∧
      p.val = s.sp.val + 1 ∧ ∀ j : Fin 16, k[j] = if j.val = s.sp.val then s.pc else s.stack[j]

/-- `00EE` (R101) with an entry in use moves `sp` down by one and sets `pc` to the entry there plus 2; the entry keeps its
value. The bound is decision D10. -/
def Obligations.ReturnPopsAndStepsOverTheCall : Prop :=
  ∀ s : State, (h : 0 < s.sp.val) →
    ∃ p : Fin 17, p.val = s.sp.val - 1 ∧
      exec .ret s = .next { s with sp := p, pc := s.stack[s.sp.val - 1]'(by have := s.sp.isLt; omega) + 2 }

/-- `2NNN` with 16 entries in use raises `StackOverflow`, `00EE` with none raises `StackUnderflow`; nothing but the record
changes (R101, R103, R171; decisions D10, D11, D9). -/
def Obligations.StackFaults : Prop :=
  (∀ (nnn : Addr) (s : State), s.sp.val = 16 →
    exec (.call nnn) s = .next { s with fault := ⟨.stackOverflow, formatA 0x2#4 nnn, s.pc⟩ }) ∧
  (∀ s : State, s.sp.val = 0 →
    exec .ret s = .next { s with fault := ⟨.stackUnderflow, 0x00EE, s.pc⟩ })

/-- A call and, in any later state with the same stack and `sp`, a return: execution goes on after the `2NNN` word, with
`sp` as before the call (R101, R103, R109). -/
def Obligations.ReturnUndoesCall : Prop :=
  ∀ (nnn : Addr) (s : State), s.sp.val < 16 →
    ∃ t, exec (.call nnn) s = .next t ∧
      ∀ t' : State, t'.stack = t.stack → t'.sp = t.sp →
        exec .ret t' = .next { t' with sp := s.sp, pc := s.pc + 2 }

/-- R105 and its complement `3XNN`: skip on a register against an immediate; nothing but `pc` changes. -/
def Obligations.SkipOnImmediate : Prop :=
  ∀ (x : Reg) (nn : Byte) (s : State),
    decode (formatXI 0x3#4 x nn) = .ok (.seImm x nn) ∧ decode (formatXI 0x4#4 x nn) = .ok (.sneImm x nn) ∧
    exec (.seImm x nn) s = .next { s with pc := if s.getV x = nn then s.pc + 4 else s.pc + 2 } ∧
    exec (.sneImm x nn) s = .next { s with pc := if s.getV x ≠ nn then s.pc + 4 else s.pc + 2 }

/-- R106, R107: skip on two registers, `N` being 0 and every other `N` an unknown opcode; nothing but `pc` changes; with
`X = Y` the first always skips and the second never. -/
def Obligations.SkipOnRegisters : Prop :=
  ∀ (x y : Reg) (s : State),
    decode (formatXY 0x5#4 x y 0x0#4) = .ok (.seReg x y) ∧ decode (formatXY 0x9#4 x y 0x0#4) = .ok (.sneReg x y) ∧
    (∀ n : Nibble, n ≠ 0 →
      decode (formatXY 0x5#4 x y n) = .error (.unknownOpcode (formatXY 0x5#4 x y n)) ∧
      decode (formatXY 0x9#4 x y n) = .error (.unknownOpcode (formatXY 0x9#4 x y n))) ∧
    exec (.seReg x y) s = .next { s with pc := if s.getV x = s.getV y then s.pc + 4 else s.pc + 2 } ∧
    exec (.sneReg x y) s = .next { s with pc := if s.getV x ≠ s.getV y then s.pc + 4 else s.pc + 2 } ∧
    (x = y → exec (.seReg x y) s = .next { s with pc := s.pc + 4 } ∧
      exec (.sneReg x y) s = .next { s with pc := s.pc + 2 })

/-- `BNNN` (R108): `pc` is the sum of V0 and `NNN` as integers, not masked to 12 bits (decision D29, log 14). -/
def Obligations.JumpWithOffsetAddsV0 : Prop :=
  ∀ (nnn : Addr) (s : State),
    ∃ p : Word, exec (.jpV0 nnn) s = .next { s with pc := p } ∧ p.toNat = (s.getV 0).toNat + nnn.toNat

/-! ### Registers and ALU (41_alu.md) -/

/-- R122, R123, R124: load an immediate, add an immediate modulo 256, copy a register; no other register changes, VF only
as `V[X]`, nothing else but `pc`. -/
def Obligations.LoadsAndAddImmediate : Prop :=
  ∀ (x y : Reg) (nn : Byte) (s : State),
    decode (formatXI 0x6#4 x nn) = .ok (.ldImm x nn) ∧ decode (formatXI 0x7#4 x nn) = .ok (.addImm x nn) ∧
    decode (formatXY 0x8#4 x y 0x0#4) = .ok (.ldReg x y) ∧
    (∃ v : Vector Byte 16, exec (.ldImm x nn) s = .next { s with v := v, pc := s.pc + 2 } ∧
      ∀ r : Reg, v[r] = if r = x then nn else s.getV r) ∧
    (∃ v : Vector Byte 16, exec (.addImm x nn) s = .next { s with v := v, pc := s.pc + 2 } ∧
      ∀ r : Reg, v[r].toNat = if r = x then ((s.getV x).toNat + nn.toNat) % 256 else (s.getV r).toNat) ∧
    (∃ v : Vector Byte 16, exec (.ldReg x y) s = .next { s with v := v, pc := s.pc + 2 } ∧
      ∀ r : Reg, v[r] = if r = x then s.getV y else s.getV r)

/-- R125, R126, R127: the bitwise operations, bit by bit; no other register changes, VF only as `V[X]`, nothing else but
`pc`. -/
def Obligations.BitwiseOperations : Prop :=
  ∀ (x y : Reg) (s : State),
    decode (formatXY 0x8#4 x y 0x1#4) = .ok (.orReg x y) ∧ decode (formatXY 0x8#4 x y 0x2#4) = .ok (.andReg x y) ∧
    decode (formatXY 0x8#4 x y 0x3#4) = .ok (.xorReg x y) ∧
    (∃ v : Vector Byte 16, exec (.orReg x y) s = .next { s with v := v, pc := s.pc + 2 } ∧
      (∀ b < 8, v[x].getLsbD b = ((s.getV x).getLsbD b || (s.getV y).getLsbD b)) ∧
      ∀ r : Reg, r ≠ x → v[r] = s.getV r) ∧
    (∃ v : Vector Byte 16, exec (.andReg x y) s = .next { s with v := v, pc := s.pc + 2 } ∧
      (∀ b < 8, v[x].getLsbD b = ((s.getV x).getLsbD b && (s.getV y).getLsbD b)) ∧
      ∀ r : Reg, r ≠ x → v[r] = s.getV r) ∧
    (∃ v : Vector Byte 16, exec (.xorReg x y) s = .next { s with v := v, pc := s.pc + 2 } ∧
      (∀ b < 8, v[x].getLsbD b = ((s.getV x).getLsbD b != (s.getV y).getLsbD b)) ∧
      ∀ r : Reg, r ≠ x → v[r] = s.getV r)

/-- `8XY4` (R128) for every `X` and `Y`: VF gets the carry of the unwrapped sum, then `V[X]` the sum modulo 256 with the
registers as the flag write left them (R121: decision D6, log 13). `c` is the carry; `a`, `b` are the operands then. -/
def Obligations.AddWithCarry : Prop :=
  ∀ (x y : Reg) (s : State),
    ∃ v : Vector Byte 16, exec (.addReg x y) s = .next { s with v := v, pc := s.pc + 2 } ∧
      ∃ c a b : Nat, c = (if (s.getV x).toNat + (s.getV y).toNat > 255 then 1 else 0) ∧
        a = (if x = VF then c else (s.getV x).toNat) ∧ b = (if y = VF then c else (s.getV y).toNat) ∧
        ∀ r : Reg, v[r].toNat = if r = x then (a + b) % 256 else if r = VF then c else (s.getV r).toNat

/-- `8XY5` and `8XY7` (R129, R131) for every `X` and `Y`: VF gets not-borrow, then `V[X]` the difference modulo 256 with
the registers as the flag write left them (R121: decision D6, log 13). -/
def Obligations.SubtractWithNotBorrow : Prop :=
  ∀ (x y : Reg) (s : State),
    (∃ v : Vector Byte 16, exec (.subReg x y) s = .next { s with v := v, pc := s.pc + 2 } ∧
      ∃ c a b : Nat, c = (if (s.getV y).toNat > (s.getV x).toNat then 0 else 1) ∧
        a = (if x = VF then c else (s.getV x).toNat) ∧ b = (if y = VF then c else (s.getV y).toNat) ∧
        ∀ r : Reg, v[r].toNat = if r = x then (a + 256 - b) % 256 else if r = VF then c else (s.getV r).toNat) ∧
    (∃ v : Vector Byte 16, exec (.subnReg x y) s = .next { s with v := v, pc := s.pc + 2 } ∧
      ∃ c a b : Nat, c = (if (s.getV x).toNat > (s.getV y).toNat then 0 else 1) ∧
        a = (if x = VF then c else (s.getV x).toNat) ∧ b = (if y = VF then c else (s.getV y).toNat) ∧
        ∀ r : Reg, v[r].toNat = if r = x then (b + 256 - a) % 256 else if r = VF then c else (s.getV r).toNat)

/-- `8XY6` and `8XYE` (R130, R132) for every `X` and `Y`, `Y` ignored (R79): VF gets the bit shifted out, 0 or 1 to the
right and 0x00 or 0x80 to the left (decision D7, log 8), then `V[X]` is shifted; with `X = 0xF` the result is 0x00
(R121: decision D6, log 13). -/
def Obligations.ShiftsByOne : Prop :=
  ∀ (x y : Reg) (s : State),
    (∃ v : Vector Byte 16, exec (.shr x y) s = .next { s with v := v, pc := s.pc + 2 } ∧
      ∀ r : Reg, v[r].toNat =
        if r = x then (if x = VF then 0 else (s.getV x).toNat / 2)
        else if r = VF then (s.getV x).toNat % 2 else (s.getV r).toNat) ∧
    (∃ v : Vector Byte 16, exec (.shl x y) s = .next { s with v := v, pc := s.pc + 2 } ∧
      ∀ r : Reg, v[r].toNat =
        if r = x then (if x = VF then 0 else 2 * (s.getV x).toNat % 256)
        else if r = VF then (if 128 ≤ (s.getV x).toNat then 128 else 0) else (s.getV r).toNat)

/-- `CXNN` (R133): `V[X]` is the free byte masked with `NN`, whatever the free byte is (decision D21, log 3); the next
execution takes the next free byte. -/
def Obligations.RandomByteIsMasked : Prop :=
  ∀ (x : Reg) (nn : Byte) (s : State),
    ∃ v : Vector Byte 16, exec (.rnd x nn) s = .next { s with v := v, pc := s.pc + 2, draws := s.draws + 1 } ∧
      (∀ b < 8, v[x].getLsbD b = ((Config.freeRnd s.draws).getLsbD b && nn.getLsbD b)) ∧
      ∀ r : Reg, r ≠ x → v[r] = s.getV r

/-! ### Index register and memory (42_index_memory.md) -/

/-- R141: `ANNN` sets `I` to `NNN`, every `NNN` is legal, and nothing else but `pc` changes. -/
def Obligations.LoadIndex : Prop :=
  ∀ (nnn : Addr) (s : State),
    decode (formatA 0xA#4 nnn) = .ok (.ldI nnn) ∧
    ∃ w : Word, exec (.ldI nnn) s = .next { s with i := w, pc := s.pc + 2 } ∧ w.toNat = nnn.toNat

/-- `FX1E` (R142) for every `X`, in a state with `I ≤ 0xFFF`: VF tells whether the unmasked sum passes 0xFFF, then `I`
gets the sum masked to 12 bits (decision D15, log 14), with `V[X]` as the flag write left it (R121: D6, log 13). -/
def Obligations.AddToIndex : Prop :=
  ∀ (x : Reg) (s : State), s.i.toNat ≤ 0xFFF →
    ∃ (v : Vector Byte 16) (w : Word), exec (.addI x) s = .next { s with v := v, i := w, pc := s.pc + 2 } ∧
      ∃ c : Nat, c = (if (s.getV x).toNat + s.i.toNat > 0xFFF then 1 else 0) ∧
        w.toNat = (s.i.toNat + if x = VF then c else (s.getV x).toNat) % 0x1000 ∧
        ∀ r : Reg, v[r].toNat = if r = VF then c else (s.getV r).toNat

/-- `FX29` (R143): `I` is the address of glyph `V[X]`, `0x050 + 5 * V[X]`, all 8 bits used; where `V[X] ≤ 0x0F` the five
bytes there are the glyph's after reset. `FONT_BASE` is decision D16 (log 9), `FONT` decision D17 (log 6). -/
def Obligations.PointIndexAtGlyph : Prop :=
  ∀ (x : Reg) (s : State),
    ∃ w : Word, exec (.ldF x) s = .next { s with i := w, pc := s.pc + 2 } ∧
      w.toNat = 0x050 + 5 * (s.getV x).toNat ∧
      ((s.getV x).toNat ≤ 0x0F → s.Inv → ∀ k < 5,
        s.mem.read (w.toNat + k) = Config.font.getD (5 * (s.getV x).toNat + k) 0)

/-- `FX33` (R144) where its three addresses can be stored to: the decimal digits, hundreds first; every other byte as
before. The bounds are decisions D12, D13 (log 11). -/
def Obligations.StoreDecimalDigits : Prop :=
  ∀ (x : Reg) (s : State), 0x200 ≤ s.i.toNat → s.i.toNat + 2 ≤ 0xFFF →
    ∃ m : Memory, exec (.ldB x) s = .next { s with mem := m, pc := s.pc + 2 } ∧
      ∃ d2 d1 d0 : Nat, d2 < 10 ∧ d1 < 10 ∧ d0 < 10 ∧ 100 * d2 + 10 * d1 + d0 = (s.getV x).toNat ∧
        (m.read s.i.toNat).toNat = d2 ∧ (m.read (s.i.toNat + 1)).toNat = d1 ∧ (m.read (s.i.toNat + 2)).toNat = d0 ∧
        ∀ a, a < s.i.toNat ∨ s.i.toNat + 3 ≤ a → m.read a = s.mem.read a

/-- `FX55` (R145) where its addresses can be stored to: V0 to VX at `I` upward, `I` unchanged; every other byte as before.
The bounds are decisions D12, D13 (log 11). -/
def Obligations.StoreRegisters : Prop :=
  ∀ (x : Reg) (s : State), 0x200 ≤ s.i.toNat → s.i.toNat + x.val ≤ 0xFFF →
    ∃ m : Memory, exec (.stRegs x) s = .next { s with mem := m, pc := s.pc + 2 } ∧
      (∀ k : Reg, k ≤ x → m.read (s.i.toNat + k.val) = s.getV k) ∧
      ∀ a, a < s.i.toNat ∨ s.i.toNat + x.val + 1 ≤ a → m.read a = s.mem.read a

/-- `FX65` (R146) where its addresses can be read: V0 to VX from `I` upward, the registers above X and `I` unchanged. The
bound is decision D12. -/
def Obligations.LoadRegisters : Prop :=
  ∀ (x : Reg) (s : State), s.i.toNat + x.val ≤ 0xFFF →
    ∃ v : Vector Byte 16, exec (.ldRegs x) s = .next { s with v := v, pc := s.pc + 2 } ∧
      ∀ k : Reg, v[k] = if k ≤ x then s.mem.read (s.i.toNat + k.val) else s.getV k

/-- The stores and the load raise `MemOutOfRange` past 0xFFF, the stores `StoreToReserved` below 0x200; nothing but the
record changes: no byte and no register is written (R144, R145, R146, R171, R175; decisions D9, D12, D13, log 11). -/
def Obligations.LoadAndStoreFaults : Prop :=
  ∀ (x : Reg) (s : State),
    (0xFFF < s.i.toNat + 2 →
      exec (.ldB x) s = .next { s with fault := ⟨.memOutOfRange, formatXF 0xF#4 x 0x33#8, s.pc⟩ }) ∧
    (s.i.toNat < 0x200 →
      exec (.ldB x) s = .next { s with fault := ⟨.storeToReserved, formatXF 0xF#4 x 0x33#8, s.pc⟩ }) ∧
    (0xFFF < s.i.toNat + x.val →
      exec (.stRegs x) s = .next { s with fault := ⟨.memOutOfRange, formatXF 0xF#4 x 0x55#8, s.pc⟩ }) ∧
    (s.i.toNat < 0x200 →
      exec (.stRegs x) s = .next { s with fault := ⟨.storeToReserved, formatXF 0xF#4 x 0x55#8, s.pc⟩ }) ∧
    (0xFFF < s.i.toNat + x.val →
      exec (.ldRegs x) s = .next { s with fault := ⟨.memOutOfRange, formatXF 0xF#4 x 0x65#8, s.pc⟩ })

/-- What `FX55` stored, `FX65` loads: in any later state with the same memory and `I`, V0 to VX get the values they had at
the store, and the registers above keep theirs (R145, R146, R63). -/
def Obligations.LoadGivesBackWhatWasStored : Prop :=
  ∀ (x : Reg) (s : State), 0x200 ≤ s.i.toNat → s.i.toNat + x.val ≤ 0xFFF →
    ∃ t, exec (.stRegs x) s = .next t ∧
      ∀ t' : State, t'.mem = t.mem → t'.i = t.i →
        ∃ u, exec (.ldRegs x) t' = .next u ∧
          ∀ k : Reg, u.getV k = if k ≤ x then s.getV k else t'.getV k

/-- A store is seen by the very next fetch (R52, R65): `FX55` with `I = pc + 2` and `X ≥ 1` makes the next word the one of
V0 and V1, V0 the high byte. -/
def Obligations.StoredWordIsFetchedNext : Prop :=
  ∀ (x : Reg) (s : State), 1 ≤ x.val → s.i.toNat = s.pc.toNat + 2 → 0x200 ≤ s.i.toNat → s.i.toNat + x.val ≤ 0xFFF →
    ∃ t, exec (.stRegs x) s = .next t ∧ t.fetch = some (s.getV 0 ++ s.getV 1)

/-! ### Display (43_display.md) -/

/-- `00E0` (R151): every cell 0, the log empty, `clearReq` set; `drawReq` (decision D23, log 16), VF and everything else
but `pc` as before. -/
def Obligations.ClearDisplay : Prop :=
  ∀ s : State,
    ∃ g : Framebuffer, exec .cls s = .next { s with fb := g, log := [], clearReq := true, pc := s.pc + 2 } ∧
      ∀ p : Pixel, g.get p = false

/-- `DXYN` (R152) where the sprite can be read and its set bits are on the grid: exactly the pixels under set bits are
toggled; VF is 1 where one of them was on and 0 otherwise; one log entry per toggle, in order, with the new value;
`drawReq` set; nothing else but `pc` changes (R153 b, c, d). Bit order, order of entries and the clearing of VF are
decision D18 (log 15). -/
def Obligations.DrawTogglesTheSprite : Prop :=
  ∀ (x y : Reg) (n : Fin 16) (s : State), spriteReadable s n → spriteOnGrid s x y n →
    ∃ (v : Vector Byte 16) (g : Framebuffer) (es : List LogEntry),
      exec (.drw x y n) s =
        .next { s with v := v, fb := g, log := s.log ++ es, drawReq := true, pc := s.pc + 2 } ∧
      (∀ p, covers s x y n p → g.get p = !s.fb.get p) ∧
      (∀ p, ¬ covers s x y n p → g.get p = s.fb.get p) ∧
      (∀ r : Reg, r ≠ VF → v[r] = s.getV r) ∧
      ((∃ p, covers s x y n p ∧ s.fb.get p = true) → v[VF] = 1) ∧
      ((∀ p, covers s x y n p → s.fb.get p = false) → v[VF] = 0) ∧
      es.map (fun e => (e.pixel.x.val, e.pixel.y.val)) = toggledInOrder s x y n ∧
      ∀ e ∈ es, e.v = g.get e.pixel

/-- `DXYN` raises `MemOutOfRange` where a sprite byte lies past 0xFFF, else `PixelOutOfRange` where a set bit lands
outside the grid; nothing but the record changes (R152, R171, R175, R178; decisions D9, D12, D19, log 12). -/
def Obligations.DrawFaults : Prop :=
  ∀ (x y : Reg) (n : Fin 16) (s : State),
    (¬ spriteReadable s n →
      exec (.drw x y n) s = .next { s with fault := ⟨.memOutOfRange, formatXYN 0xD#4 x y n, s.pc⟩ }) ∧
    (spriteReadable s n → ¬ spriteOnGrid s x y n →
      exec (.drw x y n) s = .next { s with fault := ⟨.pixelOutOfRange, formatXYN 0xD#4 x y n, s.pc⟩ })

/-- R153 (a): a draw that does not fault, repeated with the same coordinates, does not fault and restores the framebuffer;
the second draw reports a collision where the first turned a pixel on (decision D18, log 15). -/
def Obligations.DrawingTwiceRestores : Prop :=
  ∀ (x y : Reg) (n : Fin 16) (s t : State), s.Running → exec (.drw x y n) s = .next t → t.Running →
    t.getV x = s.getV x → t.getV y = s.getV y →
    ∃ u, exec (.drw x y n) t = .next u ∧ u.Running ∧ u.fb = s.fb ∧
      ((∃ p, s.fb.get p = false ∧ t.fb.get p = true) → u.getV VF = 1)

/-! ### Keypad and timers (44_keypad_timer_instr.md) -/

/-- `EX9E` and `EXA1` (R161, R162) with a key number: skip where the key is pressed, or not pressed; nothing but `pc`
changes, no key in particular (decision D8, log 10). -/
def Obligations.SkipOnKey : Prop :=
  ∀ (x : Reg) (k : Key) (s : State), (s.getV x).toNat = k.val →
    exec (.skp x) s = .next { s with pc := if s.keyDown k = true then s.pc + 4 else s.pc + 2 } ∧
    exec (.sknp x) s = .next { s with pc := if s.keyDown k = false then s.pc + 4 else s.pc + 2 }

/-- `EX9E` and `EXA1` with `V[X] > 0x0F` raise `KeyIndexOutOfRange`; nothing but the record changes (R161, R162, R171;
decisions D9, D20). -/
def Obligations.KeyIndexFaults : Prop :=
  ∀ (x : Reg) (s : State), 0x0F < (s.getV x).toNat →
    exec (.skp x) s = .next { s with fault := ⟨.keyIndexOutOfRange, formatXF 0xE#4 x 0x9E#8, s.pc⟩ } ∧
    exec (.sknp x) s = .next { s with fault := ⟨.keyIndexOutOfRange, formatXF 0xE#4 x 0xA1#8, s.pc⟩ }

/-- `FX0A` (R164): with a key pressed `V[X]` gets the least pressed one; with none nothing changes at all, `pc` included
(level-triggered: decision D28). -/
def Obligations.WaitForKey : Prop :=
  ∀ (x : Reg) (s : State),
    (∀ k : Key, s.keyDown k = true → (∀ j, j < k → s.keyDown j = false) →
      ∃ v : Vector Byte 16, exec (.ldVxK x) s = .next { s with v := v, pc := s.pc + 2 } ∧
        ∀ r : Reg, v[r].toNat = if r = x then k.val else (s.getV r).toNat) ∧
    ((∀ k, s.keyDown k = false) → exec (.ldVxK x) s = .next s)

/-- R163, R165: `FX07` reads DT into a register and `FX15` sets DT, any value; `FX18` sets ST in the same way. Nothing else
but `pc` changes. -/
def Obligations.TimerMoves : Prop :=
  ∀ (x : Reg) (s : State),
    decode (formatXF 0xF#4 x 0x07#8) = .ok (.ldVxDt x) ∧ decode (formatXF 0xF#4 x 0x15#8) = .ok (.ldDt x) ∧
    decode (formatXF 0xF#4 x 0x18#8) = .ok (.ldSt x) ∧
    (∃ v : Vector Byte 16, exec (.ldVxDt x) s = .next { s with v := v, pc := s.pc + 2 } ∧
      ∀ r : Reg, v[r] = if r = x then s.dt else s.getV r) ∧
    exec (.ldDt x) s = .next { s with dt := s.getV x, pc := s.pc + 2 } ∧
    exec (.ldSt x) s = .next { s with st := s.getV x, pc := s.pc + 2 }
end

