-- ==== Sys2Proof/Laws/State.lean ====
section
/-! SUPPORT. One lemma per field per named update of State, each true by `rfl`, so that no proof unfolds a record
update. -/

namespace Sys2Proof.Machine

variable (s : State)

/-! ### `setV` -/
@[simp] theorem State.setV_v (r : Reg) (b : Byte) : (s.setV r b).v = s.v.set r b := rfl
@[simp] theorem State.setV_i (r : Reg) (b : Byte) : (s.setV r b).i = s.i := rfl
@[simp] theorem State.setV_pc (r : Reg) (b : Byte) : (s.setV r b).pc = s.pc := rfl
@[simp] theorem State.setV_stack (r : Reg) (b : Byte) : (s.setV r b).stack = s.stack := rfl
@[simp] theorem State.setV_sp (r : Reg) (b : Byte) : (s.setV r b).sp = s.sp := rfl
@[simp] theorem State.setV_dt (r : Reg) (b : Byte) : (s.setV r b).dt = s.dt := rfl
@[simp] theorem State.setV_st (r : Reg) (b : Byte) : (s.setV r b).st = s.st := rfl
@[simp] theorem State.setV_keys (r : Reg) (b : Byte) : (s.setV r b).keys = s.keys := rfl
@[simp] theorem State.setV_fb (r : Reg) (b : Byte) : (s.setV r b).fb = s.fb := rfl
@[simp] theorem State.setV_log (r : Reg) (b : Byte) : (s.setV r b).log = s.log := rfl
@[simp] theorem State.setV_drawReq (r : Reg) (b : Byte) : (s.setV r b).drawReq = s.drawReq := rfl
@[simp] theorem State.setV_clearReq (r : Reg) (b : Byte) : (s.setV r b).clearReq = s.clearReq := rfl
@[simp] theorem State.setV_fault (r : Reg) (b : Byte) : (s.setV r b).fault = s.fault := rfl
@[simp] theorem State.setV_mem (r : Reg) (b : Byte) : (s.setV r b).mem = s.mem := rfl
@[simp] theorem State.setV_loadOpen (r : Reg) (b : Byte) : (s.setV r b).loadOpen = s.loadOpen := rfl
@[simp] theorem State.setV_draws (r : Reg) (b : Byte) : (s.setV r b).draws = s.draws := rfl
@[simp] theorem State.setV_schedule (r : Reg) (b : Byte) : (s.setV r b).schedule = s.schedule := rfl

/-! ### `setI` -/
@[simp] theorem State.setI_v (w : Word) : (s.setI w).v = s.v := rfl
@[simp] theorem State.setI_i (w : Word) : (s.setI w).i = w &&& 0x0FFF := rfl
@[simp] theorem State.setI_pc (w : Word) : (s.setI w).pc = s.pc := rfl
@[simp] theorem State.setI_stack (w : Word) : (s.setI w).stack = s.stack := rfl
@[simp] theorem State.setI_sp (w : Word) : (s.setI w).sp = s.sp := rfl
@[simp] theorem State.setI_dt (w : Word) : (s.setI w).dt = s.dt := rfl
@[simp] theorem State.setI_st (w : Word) : (s.setI w).st = s.st := rfl
@[simp] theorem State.setI_keys (w : Word) : (s.setI w).keys = s.keys := rfl
@[simp] theorem State.setI_fb (w : Word) : (s.setI w).fb = s.fb := rfl
@[simp] theorem State.setI_log (w : Word) : (s.setI w).log = s.log := rfl
@[simp] theorem State.setI_drawReq (w : Word) : (s.setI w).drawReq = s.drawReq := rfl
@[simp] theorem State.setI_clearReq (w : Word) : (s.setI w).clearReq = s.clearReq := rfl
@[simp] theorem State.setI_fault (w : Word) : (s.setI w).fault = s.fault := rfl
@[simp] theorem State.setI_mem (w : Word) : (s.setI w).mem = s.mem := rfl
@[simp] theorem State.setI_loadOpen (w : Word) : (s.setI w).loadOpen = s.loadOpen := rfl
@[simp] theorem State.setI_draws (w : Word) : (s.setI w).draws = s.draws := rfl
@[simp] theorem State.setI_schedule (w : Word) : (s.setI w).schedule = s.schedule := rfl

/-! ### `setPc` -/
@[simp] theorem State.setPc_v (w : Word) : (s.setPc w).v = s.v := rfl
@[simp] theorem State.setPc_i (w : Word) : (s.setPc w).i = s.i := rfl
@[simp] theorem State.setPc_pc (w : Word) : (s.setPc w).pc = w := rfl
@[simp] theorem State.setPc_stack (w : Word) : (s.setPc w).stack = s.stack := rfl
@[simp] theorem State.setPc_sp (w : Word) : (s.setPc w).sp = s.sp := rfl
@[simp] theorem State.setPc_dt (w : Word) : (s.setPc w).dt = s.dt := rfl
@[simp] theorem State.setPc_st (w : Word) : (s.setPc w).st = s.st := rfl
@[simp] theorem State.setPc_keys (w : Word) : (s.setPc w).keys = s.keys := rfl
@[simp] theorem State.setPc_fb (w : Word) : (s.setPc w).fb = s.fb := rfl
@[simp] theorem State.setPc_log (w : Word) : (s.setPc w).log = s.log := rfl
@[simp] theorem State.setPc_drawReq (w : Word) : (s.setPc w).drawReq = s.drawReq := rfl
@[simp] theorem State.setPc_clearReq (w : Word) : (s.setPc w).clearReq = s.clearReq := rfl
@[simp] theorem State.setPc_fault (w : Word) : (s.setPc w).fault = s.fault := rfl
@[simp] theorem State.setPc_mem (w : Word) : (s.setPc w).mem = s.mem := rfl
@[simp] theorem State.setPc_loadOpen (w : Word) : (s.setPc w).loadOpen = s.loadOpen := rfl
@[simp] theorem State.setPc_draws (w : Word) : (s.setPc w).draws = s.draws := rfl
@[simp] theorem State.setPc_schedule (w : Word) : (s.setPc w).schedule = s.schedule := rfl

/-! ### `advance` -/
@[simp] theorem State.advance_v : (s.advance).v = s.v := rfl
@[simp] theorem State.advance_i : (s.advance).i = s.i := rfl
@[simp] theorem State.advance_pc : (s.advance).pc = s.pc + 2 := rfl
@[simp] theorem State.advance_stack : (s.advance).stack = s.stack := rfl
@[simp] theorem State.advance_sp : (s.advance).sp = s.sp := rfl
@[simp] theorem State.advance_dt : (s.advance).dt = s.dt := rfl
@[simp] theorem State.advance_st : (s.advance).st = s.st := rfl
@[simp] theorem State.advance_keys : (s.advance).keys = s.keys := rfl
@[simp] theorem State.advance_fb : (s.advance).fb = s.fb := rfl
@[simp] theorem State.advance_log : (s.advance).log = s.log := rfl
@[simp] theorem State.advance_drawReq : (s.advance).drawReq = s.drawReq := rfl
@[simp] theorem State.advance_clearReq : (s.advance).clearReq = s.clearReq := rfl
@[simp] theorem State.advance_fault : (s.advance).fault = s.fault := rfl
@[simp] theorem State.advance_mem : (s.advance).mem = s.mem := rfl
@[simp] theorem State.advance_loadOpen : (s.advance).loadOpen = s.loadOpen := rfl
@[simp] theorem State.advance_draws : (s.advance).draws = s.draws := rfl
@[simp] theorem State.advance_schedule : (s.advance).schedule = s.schedule := rfl

/-! ### `skipIf` -/
@[simp] theorem State.skipIf_v (c : Bool) : (s.skipIf c).v = s.v := rfl
@[simp] theorem State.skipIf_i (c : Bool) : (s.skipIf c).i = s.i := rfl
@[simp] theorem State.skipIf_pc (c : Bool) : (s.skipIf c).pc = s.pc + if c then 4 else 2 := rfl
@[simp] theorem State.skipIf_stack (c : Bool) : (s.skipIf c).stack = s.stack := rfl
@[simp] theorem State.skipIf_sp (c : Bool) : (s.skipIf c).sp = s.sp := rfl
@[simp] theorem State.skipIf_dt (c : Bool) : (s.skipIf c).dt = s.dt := rfl
@[simp] theorem State.skipIf_st (c : Bool) : (s.skipIf c).st = s.st := rfl
@[simp] theorem State.skipIf_keys (c : Bool) : (s.skipIf c).keys = s.keys := rfl
@[simp] theorem State.skipIf_fb (c : Bool) : (s.skipIf c).fb = s.fb := rfl
@[simp] theorem State.skipIf_log (c : Bool) : (s.skipIf c).log = s.log := rfl
@[simp] theorem State.skipIf_drawReq (c : Bool) : (s.skipIf c).drawReq = s.drawReq := rfl
@[simp] theorem State.skipIf_clearReq (c : Bool) : (s.skipIf c).clearReq = s.clearReq := rfl
@[simp] theorem State.skipIf_fault (c : Bool) : (s.skipIf c).fault = s.fault := rfl
@[simp] theorem State.skipIf_mem (c : Bool) : (s.skipIf c).mem = s.mem := rfl
@[simp] theorem State.skipIf_loadOpen (c : Bool) : (s.skipIf c).loadOpen = s.loadOpen := rfl
@[simp] theorem State.skipIf_draws (c : Bool) : (s.skipIf c).draws = s.draws := rfl
@[simp] theorem State.skipIf_schedule (c : Bool) : (s.skipIf c).schedule = s.schedule := rfl

/-! ### `setDt` -/
@[simp] theorem State.setDt_v (b : Byte) : (s.setDt b).v = s.v := rfl
@[simp] theorem State.setDt_i (b : Byte) : (s.setDt b).i = s.i := rfl
@[simp] theorem State.setDt_pc (b : Byte) : (s.setDt b).pc = s.pc := rfl
@[simp] theorem State.setDt_stack (b : Byte) : (s.setDt b).stack = s.stack := rfl
@[simp] theorem State.setDt_sp (b : Byte) : (s.setDt b).sp = s.sp := rfl
@[simp] theorem State.setDt_dt (b : Byte) : (s.setDt b).dt = b := rfl
@[simp] theorem State.setDt_st (b : Byte) : (s.setDt b).st = s.st := rfl
@[simp] theorem State.setDt_keys (b : Byte) : (s.setDt b).keys = s.keys := rfl
@[simp] theorem State.setDt_fb (b : Byte) : (s.setDt b).fb = s.fb := rfl
@[simp] theorem State.setDt_log (b : Byte) : (s.setDt b).log = s.log := rfl
@[simp] theorem State.setDt_drawReq (b : Byte) : (s.setDt b).drawReq = s.drawReq := rfl
@[simp] theorem State.setDt_clearReq (b : Byte) : (s.setDt b).clearReq = s.clearReq := rfl
@[simp] theorem State.setDt_fault (b : Byte) : (s.setDt b).fault = s.fault := rfl
@[simp] theorem State.setDt_mem (b : Byte) : (s.setDt b).mem = s.mem := rfl
@[simp] theorem State.setDt_loadOpen (b : Byte) : (s.setDt b).loadOpen = s.loadOpen := rfl
@[simp] theorem State.setDt_draws (b : Byte) : (s.setDt b).draws = s.draws := rfl
@[simp] theorem State.setDt_schedule (b : Byte) : (s.setDt b).schedule = s.schedule := rfl

/-! ### `setSt` -/
@[simp] theorem State.setSt_v (b : Byte) : (s.setSt b).v = s.v := rfl
@[simp] theorem State.setSt_i (b : Byte) : (s.setSt b).i = s.i := rfl
@[simp] theorem State.setSt_pc (b : Byte) : (s.setSt b).pc = s.pc := rfl
@[simp] theorem State.setSt_stack (b : Byte) : (s.setSt b).stack = s.stack := rfl
@[simp] theorem State.setSt_sp (b : Byte) : (s.setSt b).sp = s.sp := rfl
@[simp] theorem State.setSt_dt (b : Byte) : (s.setSt b).dt = s.dt := rfl
@[simp] theorem State.setSt_st (b : Byte) : (s.setSt b).st = b := rfl
@[simp] theorem State.setSt_keys (b : Byte) : (s.setSt b).keys = s.keys := rfl
@[simp] theorem State.setSt_fb (b : Byte) : (s.setSt b).fb = s.fb := rfl
@[simp] theorem State.setSt_log (b : Byte) : (s.setSt b).log = s.log := rfl
@[simp] theorem State.setSt_drawReq (b : Byte) : (s.setSt b).drawReq = s.drawReq := rfl
@[simp] theorem State.setSt_clearReq (b : Byte) : (s.setSt b).clearReq = s.clearReq := rfl
@[simp] theorem State.setSt_fault (b : Byte) : (s.setSt b).fault = s.fault := rfl
@[simp] theorem State.setSt_mem (b : Byte) : (s.setSt b).mem = s.mem := rfl
@[simp] theorem State.setSt_loadOpen (b : Byte) : (s.setSt b).loadOpen = s.loadOpen := rfl
@[simp] theorem State.setSt_draws (b : Byte) : (s.setSt b).draws = s.draws := rfl
@[simp] theorem State.setSt_schedule (b : Byte) : (s.setSt b).schedule = s.schedule := rfl

/-! ### `setMem` -/
@[simp] theorem State.setMem_v (m : Memory) : (s.setMem m).v = s.v := rfl
@[simp] theorem State.setMem_i (m : Memory) : (s.setMem m).i = s.i := rfl
@[simp] theorem State.setMem_pc (m : Memory) : (s.setMem m).pc = s.pc := rfl
@[simp] theorem State.setMem_stack (m : Memory) : (s.setMem m).stack = s.stack := rfl
@[simp] theorem State.setMem_sp (m : Memory) : (s.setMem m).sp = s.sp := rfl
@[simp] theorem State.setMem_dt (m : Memory) : (s.setMem m).dt = s.dt := rfl
@[simp] theorem State.setMem_st (m : Memory) : (s.setMem m).st = s.st := rfl
@[simp] theorem State.setMem_keys (m : Memory) : (s.setMem m).keys = s.keys := rfl
@[simp] theorem State.setMem_fb (m : Memory) : (s.setMem m).fb = s.fb := rfl
@[simp] theorem State.setMem_log (m : Memory) : (s.setMem m).log = s.log := rfl
@[simp] theorem State.setMem_drawReq (m : Memory) : (s.setMem m).drawReq = s.drawReq := rfl
@[simp] theorem State.setMem_clearReq (m : Memory) : (s.setMem m).clearReq = s.clearReq := rfl
@[simp] theorem State.setMem_fault (m : Memory) : (s.setMem m).fault = s.fault := rfl
@[simp] theorem State.setMem_mem (m : Memory) : (s.setMem m).mem = m := rfl
@[simp] theorem State.setMem_loadOpen (m : Memory) : (s.setMem m).loadOpen = s.loadOpen := rfl
@[simp] theorem State.setMem_draws (m : Memory) : (s.setMem m).draws = s.draws := rfl
@[simp] theorem State.setMem_schedule (m : Memory) : (s.setMem m).schedule = s.schedule := rfl

/-! ### `putKey` -/
@[simp] theorem State.putKey_v (k : Key) (p : Bool) : (s.putKey k p).v = s.v := rfl
@[simp] theorem State.putKey_i (k : Key) (p : Bool) : (s.putKey k p).i = s.i := rfl
@[simp] theorem State.putKey_pc (k : Key) (p : Bool) : (s.putKey k p).pc = s.pc := rfl
@[simp] theorem State.putKey_stack (k : Key) (p : Bool) : (s.putKey k p).stack = s.stack := rfl
@[simp] theorem State.putKey_sp (k : Key) (p : Bool) : (s.putKey k p).sp = s.sp := rfl
@[simp] theorem State.putKey_dt (k : Key) (p : Bool) : (s.putKey k p).dt = s.dt := rfl
@[simp] theorem State.putKey_st (k : Key) (p : Bool) : (s.putKey k p).st = s.st := rfl
@[simp] theorem State.putKey_keys (k : Key) (p : Bool) : (s.putKey k p).keys = s.keys.set k p := rfl
@[simp] theorem State.putKey_fb (k : Key) (p : Bool) : (s.putKey k p).fb = s.fb := rfl
@[simp] theorem State.putKey_log (k : Key) (p : Bool) : (s.putKey k p).log = s.log := rfl
@[simp] theorem State.putKey_drawReq (k : Key) (p : Bool) : (s.putKey k p).drawReq = s.drawReq := rfl
@[simp] theorem State.putKey_clearReq (k : Key) (p : Bool) : (s.putKey k p).clearReq = s.clearReq := rfl
@[simp] theorem State.putKey_fault (k : Key) (p : Bool) : (s.putKey k p).fault = s.fault := rfl
@[simp] theorem State.putKey_mem (k : Key) (p : Bool) : (s.putKey k p).mem = s.mem := rfl
@[simp] theorem State.putKey_loadOpen (k : Key) (p : Bool) : (s.putKey k p).loadOpen = s.loadOpen := rfl
@[simp] theorem State.putKey_draws (k : Key) (p : Bool) : (s.putKey k p).draws = s.draws := rfl
@[simp] theorem State.putKey_schedule (k : Key) (p : Bool) : (s.putKey k p).schedule = s.schedule := rfl

/-! ### `toggle` -/
@[simp] theorem State.toggle_v (p : Pixel) : (s.toggle p).v = s.v := rfl
@[simp] theorem State.toggle_i (p : Pixel) : (s.toggle p).i = s.i := rfl
@[simp] theorem State.toggle_pc (p : Pixel) : (s.toggle p).pc = s.pc := rfl
@[simp] theorem State.toggle_stack (p : Pixel) : (s.toggle p).stack = s.stack := rfl
@[simp] theorem State.toggle_sp (p : Pixel) : (s.toggle p).sp = s.sp := rfl
@[simp] theorem State.toggle_dt (p : Pixel) : (s.toggle p).dt = s.dt := rfl
@[simp] theorem State.toggle_st (p : Pixel) : (s.toggle p).st = s.st := rfl
@[simp] theorem State.toggle_keys (p : Pixel) : (s.toggle p).keys = s.keys := rfl
@[simp] theorem State.toggle_fb (p : Pixel) : (s.toggle p).fb = s.fb.put p (!s.fb.get p) := rfl
@[simp] theorem State.toggle_log (p : Pixel) : (s.toggle p).log = s.log ++ [⟨p, !s.fb.get p⟩] := rfl
@[simp] theorem State.toggle_drawReq (p : Pixel) : (s.toggle p).drawReq = s.drawReq := rfl
@[simp] theorem State.toggle_clearReq (p : Pixel) : (s.toggle p).clearReq = s.clearReq := rfl
@[simp] theorem State.toggle_fault (p : Pixel) : (s.toggle p).fault = s.fault := rfl
@[simp] theorem State.toggle_mem (p : Pixel) : (s.toggle p).mem = s.mem := rfl
@[simp] theorem State.toggle_loadOpen (p : Pixel) : (s.toggle p).loadOpen = s.loadOpen := rfl
@[simp] theorem State.toggle_draws (p : Pixel) : (s.toggle p).draws = s.draws := rfl
@[simp] theorem State.toggle_schedule (p : Pixel) : (s.toggle p).schedule = s.schedule := rfl

/-! ### `requestDraw` -/
@[simp] theorem State.requestDraw_v : (s.requestDraw).v = s.v := rfl
@[simp] theorem State.requestDraw_i : (s.requestDraw).i = s.i := rfl
@[simp] theorem State.requestDraw_pc : (s.requestDraw).pc = s.pc := rfl
@[simp] theorem State.requestDraw_stack : (s.requestDraw).stack = s.stack := rfl
@[simp] theorem State.requestDraw_sp : (s.requestDraw).sp = s.sp := rfl
@[simp] theorem State.requestDraw_dt : (s.requestDraw).dt = s.dt := rfl
@[simp] theorem State.requestDraw_st : (s.requestDraw).st = s.st := rfl
@[simp] theorem State.requestDraw_keys : (s.requestDraw).keys = s.keys := rfl
@[simp] theorem State.requestDraw_fb : (s.requestDraw).fb = s.fb := rfl
@[simp] theorem State.requestDraw_log : (s.requestDraw).log = s.log := rfl
@[simp] theorem State.requestDraw_drawReq : (s.requestDraw).drawReq = true := rfl
@[simp] theorem State.requestDraw_clearReq : (s.requestDraw).clearReq = s.clearReq := rfl
@[simp] theorem State.requestDraw_fault : (s.requestDraw).fault = s.fault := rfl
@[simp] theorem State.requestDraw_mem : (s.requestDraw).mem = s.mem := rfl
@[simp] theorem State.requestDraw_loadOpen : (s.requestDraw).loadOpen = s.loadOpen := rfl
@[simp] theorem State.requestDraw_draws : (s.requestDraw).draws = s.draws := rfl
@[simp] theorem State.requestDraw_schedule : (s.requestDraw).schedule = s.schedule := rfl

/-! ### `clearDisplay` -/
@[simp] theorem State.clearDisplay_v : (s.clearDisplay).v = s.v := rfl
@[simp] theorem State.clearDisplay_i : (s.clearDisplay).i = s.i := rfl
@[simp] theorem State.clearDisplay_pc : (s.clearDisplay).pc = s.pc := rfl
@[simp] theorem State.clearDisplay_stack : (s.clearDisplay).stack = s.stack := rfl
@[simp] theorem State.clearDisplay_sp : (s.clearDisplay).sp = s.sp := rfl
@[simp] theorem State.clearDisplay_dt : (s.clearDisplay).dt = s.dt := rfl
@[simp] theorem State.clearDisplay_st : (s.clearDisplay).st = s.st := rfl
@[simp] theorem State.clearDisplay_keys : (s.clearDisplay).keys = s.keys := rfl
@[simp] theorem State.clearDisplay_fb : (s.clearDisplay).fb = Framebuffer.blank := rfl
@[simp] theorem State.clearDisplay_log : (s.clearDisplay).log = [] := rfl
@[simp] theorem State.clearDisplay_drawReq : (s.clearDisplay).drawReq = s.drawReq := rfl
@[simp] theorem State.clearDisplay_clearReq : (s.clearDisplay).clearReq = true := rfl
@[simp] theorem State.clearDisplay_fault : (s.clearDisplay).fault = s.fault := rfl
@[simp] theorem State.clearDisplay_mem : (s.clearDisplay).mem = s.mem := rfl
@[simp] theorem State.clearDisplay_loadOpen : (s.clearDisplay).loadOpen = s.loadOpen := rfl
@[simp] theorem State.clearDisplay_draws : (s.clearDisplay).draws = s.draws := rfl
@[simp] theorem State.clearDisplay_schedule : (s.clearDisplay).schedule = s.schedule := rfl

/-! ### `raise` -/
@[simp] theorem State.raise_v (c : Cause) (op : Word) : (s.raise c op).v = s.v := rfl
@[simp] theorem State.raise_i (c : Cause) (op : Word) : (s.raise c op).i = s.i := rfl
@[simp] theorem State.raise_pc (c : Cause) (op : Word) : (s.raise c op).pc = s.pc := rfl
@[simp] theorem State.raise_stack (c : Cause) (op : Word) : (s.raise c op).stack = s.stack := rfl
@[simp] theorem State.raise_sp (c : Cause) (op : Word) : (s.raise c op).sp = s.sp := rfl
@[simp] theorem State.raise_dt (c : Cause) (op : Word) : (s.raise c op).dt = s.dt := rfl
@[simp] theorem State.raise_st (c : Cause) (op : Word) : (s.raise c op).st = s.st := rfl
@[simp] theorem State.raise_keys (c : Cause) (op : Word) : (s.raise c op).keys = s.keys := rfl
@[simp] theorem State.raise_fb (c : Cause) (op : Word) : (s.raise c op).fb = s.fb := rfl
@[simp] theorem State.raise_log (c : Cause) (op : Word) : (s.raise c op).log = s.log := rfl
@[simp] theorem State.raise_drawReq (c : Cause) (op : Word) : (s.raise c op).drawReq = s.drawReq := rfl
@[simp] theorem State.raise_clearReq (c : Cause) (op : Word) : (s.raise c op).clearReq = s.clearReq := rfl
@[simp] theorem State.raise_fault (c : Cause) (op : Word) : (s.raise c op).fault = ⟨c, op, s.pc⟩ := rfl
@[simp] theorem State.raise_mem (c : Cause) (op : Word) : (s.raise c op).mem = s.mem := rfl
@[simp] theorem State.raise_loadOpen (c : Cause) (op : Word) : (s.raise c op).loadOpen = s.loadOpen := rfl
@[simp] theorem State.raise_draws (c : Cause) (op : Word) : (s.raise c op).draws = s.draws := rfl
@[simp] theorem State.raise_schedule (c : Cause) (op : Word) : (s.raise c op).schedule = s.schedule := rfl

/-! ### `takeEvent` -/
@[simp] theorem State.takeEvent_v : (s.takeEvent).v = s.v := rfl
@[simp] theorem State.takeEvent_i : (s.takeEvent).i = s.i := rfl
@[simp] theorem State.takeEvent_pc : (s.takeEvent).pc = s.pc := rfl
@[simp] theorem State.takeEvent_stack : (s.takeEvent).stack = s.stack := rfl
@[simp] theorem State.takeEvent_sp : (s.takeEvent).sp = s.sp := rfl
@[simp] theorem State.takeEvent_dt : (s.takeEvent).dt = s.dt := rfl
@[simp] theorem State.takeEvent_st : (s.takeEvent).st = s.st := rfl
@[simp] theorem State.takeEvent_keys : (s.takeEvent).keys = s.keys := rfl
@[simp] theorem State.takeEvent_fb : (s.takeEvent).fb = s.fb := rfl
@[simp] theorem State.takeEvent_log : (s.takeEvent).log = s.log := rfl
@[simp] theorem State.takeEvent_drawReq : (s.takeEvent).drawReq = s.drawReq := rfl
@[simp] theorem State.takeEvent_clearReq : (s.takeEvent).clearReq = s.clearReq := rfl
@[simp] theorem State.takeEvent_fault : (s.takeEvent).fault = s.fault := rfl
@[simp] theorem State.takeEvent_mem : (s.takeEvent).mem = s.mem := rfl
@[simp] theorem State.takeEvent_loadOpen : (s.takeEvent).loadOpen = s.loadOpen := rfl
@[simp] theorem State.takeEvent_draws : (s.takeEvent).draws = s.draws := rfl
@[simp] theorem State.takeEvent_schedule : (s.takeEvent).schedule = s.schedule.tail := rfl

/-! ### `closeLoad` -/
@[simp] theorem State.closeLoad_v : (s.closeLoad).v = s.v := rfl
@[simp] theorem State.closeLoad_i : (s.closeLoad).i = s.i := rfl
@[simp] theorem State.closeLoad_pc : (s.closeLoad).pc = s.pc := rfl
@[simp] theorem State.closeLoad_stack : (s.closeLoad).stack = s.stack := rfl
@[simp] theorem State.closeLoad_sp : (s.closeLoad).sp = s.sp := rfl
@[simp] theorem State.closeLoad_dt : (s.closeLoad).dt = s.dt := rfl
@[simp] theorem State.closeLoad_st : (s.closeLoad).st = s.st := rfl
@[simp] theorem State.closeLoad_keys : (s.closeLoad).keys = s.keys := rfl
@[simp] theorem State.closeLoad_fb : (s.closeLoad).fb = s.fb := rfl
@[simp] theorem State.closeLoad_log : (s.closeLoad).log = s.log := rfl
@[simp] theorem State.closeLoad_drawReq : (s.closeLoad).drawReq = s.drawReq := rfl
@[simp] theorem State.closeLoad_clearReq : (s.closeLoad).clearReq = s.clearReq := rfl
@[simp] theorem State.closeLoad_fault : (s.closeLoad).fault = s.fault := rfl
@[simp] theorem State.closeLoad_mem : (s.closeLoad).mem = s.mem := rfl
@[simp] theorem State.closeLoad_loadOpen : (s.closeLoad).loadOpen = false := rfl
@[simp] theorem State.closeLoad_draws : (s.closeLoad).draws = s.draws := rfl
@[simp] theorem State.closeLoad_schedule : (s.closeLoad).schedule = s.schedule := rfl

end Sys2Proof.Machine
end

