-- ==== Sys2Proof/Laws/Memory.lean ====
section
/-! SUPPORT. What the memory operations do: a read after a write, the bytes a block write leaves alone, the canonical
form kept by every operation, and what a passed address check says. -/

namespace Sys2Proof.Machine

@[simp] theorem Memory.read_nil (a : Nat) : Memory.read [] a = Memory.unlisted a := rfl

theorem Memory.read_cons (c : Host.Cell) (m : Memory) (a : Nat) :
    Memory.read (c :: m) a = if c.1 = a then c.2 else Memory.read m a := rfl

theorem Memory.read_erase (m : Memory) (a a' : Nat) :
    (m.erase a).read a' = if a' = a then Memory.unlisted a else m.read a' := by
  induction m with
  | nil => simp [Memory.erase]; intro h; rw [h]
  | cons c m ih =>
    unfold Memory.erase at ih ⊢
    by_cases hc : c.1 = a
    · simp only [List.filter_cons, hc, bne_self_eq_false, Bool.false_eq_true, if_false, ih, Memory.read_cons]
      by_cases h : a' = a
      · simp [h]
      · simp [h, Ne.symm h]
    · simp only [List.filter_cons, bne_iff_ne, ne_eq, hc, not_false_eq_true, if_true, Memory.read_cons, ih]
      by_cases h : c.1 = a'
      · have : ¬ a' = a := fun e => hc (h.trans e)
        simp [h, this]
      · simp [h]

theorem Memory.read_insert (m : Memory) (a a' : Nat) (b : Byte) (hm : ∀ c ∈ m, c.1 ≠ a) :
    (Memory.insert a b m).read a' = if a' = a then b else m.read a' := by
  induction m with
  | nil =>
    simp only [Memory.insert, Memory.read_cons, Memory.read_nil]
    by_cases h : a' = a
    · simp [h]
    · simp [h, Ne.symm h]
  | cons c m ih =>
    have hc : c.1 ≠ a := hm c (by simp)
    have ih := ih (fun d hd => hm d (by simp [hd]))
    simp only [Memory.insert]
    split
    · simp only [Memory.read_cons]
      by_cases h : a' = a
      · simp [h]
      · simp [h, Ne.symm h]
    · simp only [Memory.read_cons, ih]
      by_cases h : c.1 = a'
      · have : ¬ a' = a := fun e => hc (h.trans e)
        simp [h, this]
      · simp [h]

/-- A read after a write: the written byte at its address, the old byte everywhere else. -/
theorem Memory.read_write (m : Memory) (a a' : Nat) (b : Byte) :
    (m.write a b).read a' = if a' = a then b else m.read a' := by
  unfold Memory.write
  split
  · next h => rw [Memory.read_erase]; split <;> simp_all
  · rw [Memory.read_insert _ _ _ _ (by intro c hc; simp [Memory.erase] at hc; exact hc.2), Memory.read_erase]
    split <;> simp_all

theorem Memory.wf_cons (c : Host.Cell) (m : Memory) :
    Memory.wf (c :: m) = true ↔
      c.1 < Config.memSize ∧ c.2 ≠ Memory.unlisted c.1 ∧ (∀ d ∈ m, c.1 < d.1) ∧ m.wf = true := by
  simp [Memory.wf, and_assoc]

theorem Memory.wf_erase (m : Memory) (a : Nat) (h : m.wf = true) : (m.erase a).wf = true := by
  induction m with
  | nil => rfl
  | cons c m ih =>
    obtain ⟨h1, h2, h3, h4⟩ := (Memory.wf_cons c m).1 h
    unfold Memory.erase at ih ⊢
    by_cases hc : c.1 = a
    · simpa [List.filter_cons, hc] using ih h4
    · simp only [List.filter_cons, bne_iff_ne, ne_eq, hc, not_false_eq_true, if_true]
      refine (Memory.wf_cons _ _).2 ⟨h1, h2, ?_, ih h4⟩
      intro d hd
      exact h3 d (List.mem_filter.1 hd).1

theorem Memory.mem_insert (m : Memory) (a : Nat) (b : Byte) (d : Host.Cell) :
    d ∈ Memory.insert a b m ↔ d = (a, b) ∨ d ∈ m := by
  induction m with
  | nil => simp [Memory.insert]
  | cons c m ih =>
    simp only [Memory.insert]
    split
    · simp
    · simp only [List.mem_cons, ih]; tauto

theorem Memory.wf_insert (m : Memory) (a : Nat) (b : Byte) (h : m.wf = true) (ha : a < Config.memSize)
    (hb : b ≠ Memory.unlisted a) (hm : ∀ c ∈ m, c.1 ≠ a) : (Memory.insert a b m).wf = true := by
  induction m with
  | nil => exact (Memory.wf_cons _ _).2 ⟨ha, hb, by simp, rfl⟩
  | cons c m ih =>
    obtain ⟨h1, h2, h3, h4⟩ := (Memory.wf_cons c m).1 h
    have hc : c.1 ≠ a := hm c (by simp)
    simp only [Memory.insert]
    split
    · next hlt =>
      refine (Memory.wf_cons _ _).2 ⟨ha, hb, ?_, h⟩
      intro d hd
      rcases List.mem_cons.1 hd with rfl | hd
      · exact hlt
      · exact lt_trans hlt (h3 d hd)
    · next hge =>
      refine (Memory.wf_cons _ _).2 ⟨h1, h2, ?_, ih h4 (fun d hd => hm d (by simp [hd]))⟩
      intro d hd
      rcases (Memory.mem_insert _ _ _ _).1 hd with rfl | hd
      · show c.1 < a
        omega
      · exact h3 d hd

/-- A write inside the memory keeps the canonical form. -/
theorem Memory.wf_write (m : Memory) (a : Nat) (b : Byte) (h : m.wf = true) (ha : a < Config.memSize) :
    (m.write a b).wf = true := by
  unfold Memory.write
  split
  · exact Memory.wf_erase m a h
  · next hb =>
    refine Memory.wf_insert _ a b (Memory.wf_erase m a h) ha hb ?_
    intro c hc
    simp [Memory.erase] at hc
    exact hc.2

/-- A block write inside the memory keeps the canonical form. -/
theorem Memory.wf_writeBytes (bs : List Byte) (m : Memory) (a : Nat) (h : m.wf = true)
    (ha : a + bs.length ≤ Config.memSize) : (m.writeBytes a bs).wf = true := by
  induction bs generalizing m a with
  | nil => exact h
  | cons b bs ih =>
    simp only [List.length_cons] at ha
    exact ih _ _ (Memory.wf_write m a b h (by omega)) (by omega)

/-- A block write leaves every byte outside the block alone. -/
theorem Memory.read_writeBytes_outside (bs : List Byte) (m : Memory) (a a' : Nat)
    (h : a' < a ∨ a + bs.length ≤ a') : (m.writeBytes a bs).read a' = m.read a' := by
  induction bs generalizing m a with
  | nil => rfl
  | cons b bs ih =>
    simp only [List.length_cons] at h
    show (Memory.writeBytes (m.write a b) (a + 1) bs).read a' = _
    rw [ih _ _ (by omega), Memory.read_write, if_neg (by omega)]

/-- A block write puts its `k`-th byte at its `k`-th address. -/
theorem Memory.read_writeBytes_inside (bs : List Byte) (m : Memory) (a k : Nat) (h : k < bs.length) :
    (m.writeBytes a bs).read (a + k) = bs[k] := by
  induction bs generalizing m a k with
  | nil => simp at h
  | cons b bs ih =>
    show (Memory.writeBytes (m.write a b) (a + 1) bs).read (a + k) = _
    cases k with
    | zero => rw [Memory.read_writeBytes_outside _ _ _ _ (by omega), Memory.read_write]; simp
    | succ k =>
      have := ih (m.write a b) (a + 1) k (by simpa using h)
      rw [show a + (k + 1) = a + 1 + k by omega, this]; simp

@[simp] theorem Memory.length_readBytes (m : Memory) (a n : Nat) : (m.readBytes a n).length = n := by
  induction n generalizing a with
  | zero => rfl
  | succ n ih => simp [Memory.readBytes, ih]

theorem Memory.getElem_readBytes (m : Memory) (a n k : Nat) (h : k < n) :
    (m.readBytes a n)[k]'(by simpa using h) = m.read (a + k) := by
  induction n generalizing a k with
  | zero => omega
  | succ n ih =>
    cases k with
    | zero => simp [Memory.readBytes]
    | succ k =>
      simp only [Memory.readBytes, List.getElem_cons_succ]
      rw [ih (a + 1) k (by omega), show a + 1 + k = a + (k + 1) by omega]

/-- A passed range check says every address of the range passes. -/
theorem checkRange_none (check : Nat → Option Cause) (a n : Nat) :
    checkRange check a n = none ↔ ∀ k, k < n → check (a + k) = none := by
  induction n generalizing a with
  | zero => simp [checkRange]
  | succ n ih =>
    simp only [checkRange]
    constructor
    · intro h k hk
      split at h
      · simp at h
      · next h0 =>
        cases k with
        | zero => exact h0
        | succ k => rw [show a + (k + 1) = a + 1 + k by omega]; exact (ih _).1 h k (by omega)
    · intro h
      rw [show check a = none from h 0 (by omega)]
      exact (ih _).2 fun k hk => by rw [show a + 1 + k = a + (k + 1) by omega]; exact h (k + 1) (by omega)

/-- A failed range check gives the cause of some address of the range. -/
theorem checkRange_some (check : Nat → Option Cause) (a n : Nat) (c : Cause)
    (h : checkRange check a n = some c) : ∃ k, k < n ∧ check (a + k) = some c := by
  induction n generalizing a with
  | zero => simp [checkRange] at h
  | succ n ih =>
    simp only [checkRange] at h
    split at h
    · next h0 => exact ⟨0, by omega, by simpa using h0.trans h⟩
    · obtain ⟨k, hk, e⟩ := ih _ h
      exact ⟨k + 1, by omega, by rw [show a + (k + 1) = a + 1 + k by omega]; exact e⟩

theorem readCheck_none (a : Nat) : readCheck a = none ↔ a ≤ 0xFFF := by
  unfold readCheck; split <;> simp <;> omega

theorem writeCheck_none (a : Nat) : writeCheck a = none ↔ 0x200 ≤ a ∧ a ≤ 0xFFF := by
  unfold writeCheck; simp only [Config.lowStoreFault, and_true]; split
  · simp; omega
  · split <;> simp <;> omega

/-- A store range passes exactly when it lies in 0x200 to 0xFFF. -/
theorem checkRange_write_none (a n : Nat) (hn : 0 < n) :
    checkRange writeCheck a n = none ↔ 0x200 ≤ a ∧ a + n ≤ 0x1000 := by
  rw [checkRange_none]
  simp only [writeCheck_none]
  constructor
  · intro h
    have h0 := h 0 hn
    have h1 := h (n - 1) (by omega)
    omega
  · intro h k hk; omega

/-- A store range that starts at or above 0x200 and leaves the memory fails with `MemOutOfRange`. -/
theorem checkRange_write_out (a n : Nat) (hn : 0 < n) (h : 0x1000 < a + n) (hl : 0x200 ≤ a) :
    checkRange writeCheck a n = some .memOutOfRange := by
  cases hc : checkRange writeCheck a n with
  | none => have := (checkRange_write_none _ _ hn).1 hc; omega
  | some c =>
    obtain ⟨k, -, hk⟩ := checkRange_some _ _ _ _ hc
    unfold writeCheck at hk
    split at hk
    · simp_all
    · split at hk
      · omega
      · simp at hk

/-- A store range that starts below 0x200 fails with `StoreToReserved`. -/
theorem checkRange_write_low (a n : Nat) (hn : 0 < n) (h : a < 0x200) :
    checkRange writeCheck a n = some .storeToReserved := by
  cases n with
  | zero => omega
  | succ n => simp [checkRange, writeCheck, h, Config.lowStoreFault, show ¬ 0xfff < a by omega]

/-- A load range passes exactly when it is empty or ends inside the memory. -/
theorem checkRange_read_none (a n : Nat) :
    checkRange readCheck a n = none ↔ n = 0 ∨ a + n ≤ 0x1000 := by
  rw [checkRange_none]
  simp only [readCheck_none]
  constructor
  · intro h
    rcases Nat.eq_zero_or_pos n with h0 | h0
    · exact .inl h0
    · have := h (n - 1) (by omega); omega
  · rintro (h | h) k hk <;> omega

end Sys2Proof.Machine
end

