-- ==== Sys2Proof/Laws/Registers.lean ====
section
/-! SUPPORT. What the register, stack and key operations do, one lemma each. -/

namespace Sys2Proof.Machine

variable (s : State)

/-- A register read after a register write. -/
theorem State.getV_setV (r r' : Reg) (b : Byte) : (s.setV r b).getV r' = if r' = r then b else s.getV r' := by
  unfold State.getV State.setV
  by_cases h : r' = r
  · subst h; simp
  · have : r.val ≠ r'.val := fun e => h (Fin.ext e.symm)
    simp [h, Vector.getElem_set_ne, this]

@[simp] theorem State.getV_setV_self (r : Reg) (b : Byte) : (s.setV r b).getV r = b := by
  simp [State.getV_setV]

theorem State.getV_setV_other (r r' : Reg) (b : Byte) (h : r' ≠ r) : (s.setV r b).getV r' = s.getV r' := by
  simp [State.getV_setV, h]

/-- Registers depend on the field `v` alone. -/
theorem State.getV_congr {s t : State} (h : t.v = s.v) (r : Reg) : t.getV r = s.getV r := by
  unfold State.getV; rw [h]

@[simp] theorem State.getV_setI (w : Word) (r : Reg) : (s.setI w).getV r = s.getV r := rfl
@[simp] theorem State.getV_setPc (w : Word) (r : Reg) : (s.setPc w).getV r = s.getV r := rfl
@[simp] theorem State.getV_advance (r : Reg) : s.advance.getV r = s.getV r := rfl
@[simp] theorem State.getV_skipIf (c : Bool) (r : Reg) : (s.skipIf c).getV r = s.getV r := rfl
@[simp] theorem State.getV_setDt (b : Byte) (r : Reg) : (s.setDt b).getV r = s.getV r := rfl
@[simp] theorem State.getV_setSt (b : Byte) (r : Reg) : (s.setSt b).getV r = s.getV r := rfl
@[simp] theorem State.getV_setMem (m : Memory) (r : Reg) : (s.setMem m).getV r = s.getV r := rfl
@[simp] theorem State.getV_toggle (p : Pixel) (r : Reg) : (s.toggle p).getV r = s.getV r := rfl
@[simp] theorem State.getV_requestDraw (r : Reg) : s.requestDraw.getV r = s.getV r := rfl
@[simp] theorem State.getV_clearDisplay (r : Reg) : s.clearDisplay.getV r = s.getV r := rfl
@[simp] theorem State.getV_raise (c : Cause) (op : Word) (r : Reg) : (s.raise c op).getV r = s.getV r := rfl

/-- Loading registers changes nothing but registers. -/
theorem State.loadRegs_eq (bs : List Byte) (r : Nat) (s : State) :
    s.loadRegs r bs = { s with v := (s.loadRegs r bs).v } := by
  induction bs generalizing r s with
  | nil => rfl
  | cons b bs ih =>
    unfold State.loadRegs
    split
    · exact ih _ _
    · rfl

/-- The registers after a block load: the `k`-th byte in register `r + k`, the others as before. -/
theorem State.getV_loadRegs (bs : List Byte) (r : Nat) (s : State) (q : Reg) :
    (s.loadRegs r bs).getV q =
      if h : r ≤ q.val ∧ q.val < r + bs.length then bs[q.val - r]'(by omega) else s.getV q := by
  induction bs generalizing r s with
  | nil => simp only [State.loadRegs, List.length_nil]; rw [dif_neg (by omega)]
  | cons b bs ih =>
    unfold State.loadRegs
    by_cases hr : r < 16
    · rw [dif_pos hr, ih, State.getV_setV]
      simp only [List.length_cons]
      by_cases h1 : r + 1 ≤ q.val ∧ q.val < r + 1 + bs.length
      · rw [dif_pos h1, dif_pos (by omega)]
        obtain ⟨k, hk⟩ : ∃ k, q.val - r = k + 1 := ⟨q.val - r - 1, by omega⟩
        have : q.val - (r + 1) = k := by omega
        simp [hk, this]
      · rw [dif_neg h1]
        by_cases h2 : q = ⟨r, hr⟩
        · subst h2; simp
        · have : q.val ≠ r := fun e => h2 (Fin.ext e)
          rw [if_neg h2, dif_neg (by omega)]
    · rw [dif_neg hr, dif_neg (by have := q.isLt; omega)]

@[simp] theorem State.length_regsThrough (x : Reg) : (s.regsThrough x).length = x.val + 1 := by
  simp [State.regsThrough]

theorem State.getElem_regsThrough (x : Reg) (k : Nat) (h : k ≤ x.val) :
    (s.regsThrough x)[k]'(by simp; omega) = s.getV ⟨k, by have := x.isLt; omega⟩ := by
  simp [State.regsThrough, State.getV]

/-- A push succeeds exactly below 16 entries. -/
theorem State.push_none (w : Word) : s.push w = none ↔ s.sp.val = 16 := by
  have := s.sp.isLt
  unfold State.push
  split
  · simp; omega
  · simp; omega

/-- What a push does. -/
theorem State.push_some (w : Word) (t : State) (h : s.push w = some t) :
    ∃ _ : s.sp.val < 16, t = { s with stack := s.stack.set s.sp.val w, sp := ⟨s.sp.val + 1, by omega⟩ } := by
  unfold State.push at h
  split at h
  · next hsp => exact ⟨hsp, by simpa using h.symm⟩
  · simp at h

/-- A pop fails exactly on an empty stack. -/
theorem State.pop_none : s.pop = none ↔ s.sp.val = 0 := by
  unfold State.pop; split <;> simp_all

/-- What a pop does. -/
theorem State.pop_some (w : Word) (t : State) (h : s.pop = some (w, t)) :
    ∃ _ : s.sp.val ≠ 0, w = s.stack[s.sp.val - 1]'(by have := s.sp.isLt; omega) ∧
      t = { s with sp := ⟨s.sp.val - 1, by have := s.sp.isLt; omega⟩ } := by
  unfold State.pop at h
  split at h
  · next hsp =>
    simp only [Option.some.injEq, Prod.mk.injEq] at h
    exact ⟨hsp, h.1.symm, h.2.symm⟩
  · simp at h

/-- A key read after a key write. -/
theorem State.keyDown_putKey (k k' : Key) (p : Bool) :
    (s.putKey k p).keyDown k' = if k' = k then p else s.keyDown k' := by
  unfold State.keyDown State.putKey
  by_cases h : k' = k
  · subst h; simp
  · have : k.val ≠ k'.val := fun e => h (Fin.ext e.symm)
    simp [h, Vector.getElem_set_ne, this]

/-- No key is the least pressed one exactly when none is pressed. -/
theorem State.lowestKey_none : s.lowestKey = none ↔ ∀ k, s.keyDown k = false := by
  simp [State.lowestKey]

/-- The least pressed key is pressed and no smaller one is. -/
theorem State.lowestKey_some (k : Key) :
    s.lowestKey = some k ↔ s.keyDown k = true ∧ ∀ j, j < k → s.keyDown j = false := by
  unfold State.lowestKey
  rw [List.find?_eq_some_iff_getElem]
  constructor
  · rintro ⟨h, i, hi, e, hlt⟩
    simp only [List.getElem_finRange, Fin.cast_mk] at e hlt
    refine ⟨h, fun j hj => ?_⟩
    have := hlt j.val (by rw [← e] at hj; exact hj)
    simpa using this
  · rintro ⟨h, hlt⟩
    refine ⟨h, k.val, by simp, by simp, fun j hj => ?_⟩
    simp only [List.getElem_finRange, Fin.cast_mk]
    simpa using hlt ⟨j, by have := k.isLt; omega⟩ hj

end Sys2Proof.Machine
end

