-- ==== Sys2Proof/Laws/Alu.lean ====
section
/-! SUPPORT. What the shared operations of the families do: a register written, a flag then a result, a store at `I`. -/

namespace Sys2Proof.Machine

variable (s : State)

/-- Writing a register and completing changes that register and `pc` alone. -/
theorem State.writeReg_eq (x : Reg) (b : Byte) : s.writeReg x b = { s with v := s.v.set x b, pc := s.pc + 2 } := rfl

theorem State.getV_writeReg (x r : Reg) (b : Byte) : (s.writeReg x b).getV r = if r = x then b else s.getV r :=
  s.getV_setV x r b

/-- A flag then a result changes registers and `pc` alone. -/
theorem State.flagThenResult_eq (flag : Byte) (x : Reg) (result : State → Byte) :
    s.flagThenResult flag x result =
      { s with v := (s.v.set VF flag).set x (result (s.setV VF flag)), pc := s.pc + 2 } := rfl

/-- The registers after a flag then a result: the result in `x` even where `x` is VF, the flag in VF otherwise. -/
theorem State.getV_flagThenResult (flag : Byte) (x : Reg) (result : State → Byte) (r : Reg) :
    (s.flagThenResult flag x result).getV r =
      if r = x then result (s.setV VF flag) else if r = VF then flag else s.getV r := by
  unfold State.flagThenResult
  rw [State.getV_writeReg, State.getV_setV]

@[simp] theorem toNat_flagOf (c : Bool) : (flagOf c).toNat = if c then 1 else 0 := by cases c <;> rfl

/-- Not-borrow as a number. -/
theorem toNat_notBorrow (a b : Byte) : (notBorrow a b).toNat = if b.toNat > a.toNat then 0 else 1 := by
  rw [notBorrow, toNat_flagOf]; split <;> split <;> simp_all

/-- A value masked to 12 bits is the value modulo 0x1000 (R26). -/
theorem toNat_mask12 (w : Word) : (w &&& 0x0FFF).toNat = w.toNat % 0x1000 := by
  rw [BitVec.toNat_and]
  show _ &&& 2 ^ 12 - 1 = _
  rw [Nat.and_two_pow_sub_one_eq_mod]

/-- A register set to a value of `v` read by `getV`. -/
theorem State.getV_mk (v : Vector Byte 16) (r : Reg) : State.getV { s with v := v } r = v[r] := rfl

/-- What a store at `I` can do: a fault of some address, or all bytes written. -/
theorem storeAtI_cases (op : Word) (bytes : List Byte) :
    (∃ c, checkRange writeCheck s.base bytes.length = some c ∧ storeAtI op bytes s = .next (s.raise c op)) ∨
    (checkRange writeCheck s.base bytes.length = none ∧
      storeAtI op bytes s = .next (s.setMem (s.mem.writeBytes s.base bytes)).advance) := by
  unfold storeAtI
  cases h : checkRange writeCheck s.base bytes.length with
  | some c => exact .inl ⟨c, rfl, rfl⟩
  | none => exact .inr ⟨rfl, rfl⟩

/-- A store in 0x200 to 0xFFF is performed. -/
theorem storeAtI_ok (op : Word) (bytes : List Byte) (hb : 0 < bytes.length) (h1 : 0x200 ≤ s.base)
    (h2 : s.base + bytes.length ≤ 0x1000) :
    storeAtI op bytes s = .next (s.setMem (s.mem.writeBytes s.base bytes)).advance := by
  unfold storeAtI
  rw [(checkRange_write_none _ _ hb).2 ⟨h1, h2⟩]

@[simp] theorem length_bcdDigits (b : Byte) : (bcdDigits b).length = 3 := rfl

/-- A register value selects a key exactly up to 0x0F (R161, R162). -/
theorem keyOf_some (b : Byte) (k : Key) : keyOf b = some k ↔ b.toNat = k.val := by
  unfold keyOf
  split
  · simp [Fin.ext_iff]
  · next h => simp; intro e; exact h (e ▸ k.isLt)

theorem keyOf_none (b : Byte) : keyOf b = none ↔ 0x0F < b.toNat := by
  unfold keyOf; split <;> simp <;> omega

end Sys2Proof.Machine
end

