-- ==== Sys2Proof/Laws/Decode.lean ====
section
/-! SUPPORT. The fields of a word built in one of the formats of R73: each field comes back; the fields of
a word make it again; and what the masks of the opcode table (R76) compare. -/

namespace Sys2Proof

variable (t fn : Nibble) (x y : Reg) (n : Fin 16) (nn : Byte) (nnn : Addr)

@[simp] theorem fieldT_formatA : fieldT (formatA t nnn) = t :=
  (BitVec.extractLsb'_append_eq_of_le (by omega)).trans (by simp)

@[simp] theorem fieldNNN_formatA : fieldNNN (formatA t nnn) = nnn :=
  (BitVec.extractLsb'_append_eq_of_add_le (by omega)).trans (by simp)

@[simp] theorem fieldT_formatXI : fieldT (formatXI t x nn) = t :=
  (BitVec.extractLsb'_append_eq_of_le (by omega)).trans
    ((BitVec.extractLsb'_append_eq_of_le (by omega)).trans (by simp))

@[simp] theorem fieldX_formatXI : fieldX (formatXI t x nn) = x :=
  congrArg BitVec.toFin ((BitVec.extractLsb'_append_eq_of_le (by omega)).trans
    ((BitVec.extractLsb'_append_eq_of_add_le (by omega)).trans (by simp)))

@[simp] theorem fieldNN_formatXI : fieldNN (formatXI t x nn) = nn :=
  (BitVec.extractLsb'_append_eq_of_add_le (by omega)).trans (by simp)

@[simp] theorem formatXF_eq : formatXF t x nn = formatXI t x nn := rfl

@[simp] theorem fieldT_formatXY : fieldT (formatXY t x y fn) = t :=
  (BitVec.extractLsb'_append_eq_of_le (by omega)).trans
    ((BitVec.extractLsb'_append_eq_of_le (by omega)).trans
      ((BitVec.extractLsb'_append_eq_of_le (by omega)).trans (by simp)))

@[simp] theorem fieldX_formatXY : fieldX (formatXY t x y fn) = x :=
  congrArg BitVec.toFin ((BitVec.extractLsb'_append_eq_of_le (by omega)).trans
    ((BitVec.extractLsb'_append_eq_of_le (by omega)).trans
      ((BitVec.extractLsb'_append_eq_of_add_le (by omega)).trans (by simp))))

@[simp] theorem fieldY_formatXY : fieldY (formatXY t x y fn) = y :=
  congrArg BitVec.toFin ((BitVec.extractLsb'_append_eq_of_le (by omega)).trans
    ((BitVec.extractLsb'_append_eq_of_add_le (by omega)).trans (by simp)))

@[simp] theorem fieldFn_formatXY : fieldFn (formatXY t x y fn) = fn :=
  (BitVec.extractLsb'_append_eq_of_add_le (by omega)).trans (by simp)

theorem formatXYN_eq : formatXYN t x y n = formatXY t x y (BitVec.ofFin (w := 4) n) := rfl

@[simp] theorem fieldT_formatXYN : fieldT (formatXYN t x y n) = t := fieldT_formatXY _ _ _ _

@[simp] theorem fieldX_formatXYN : fieldX (formatXYN t x y n) = x := fieldX_formatXY _ _ _ _

@[simp] theorem fieldY_formatXYN : fieldY (formatXYN t x y n) = y := fieldY_formatXY _ _ _ _

@[simp] theorem fieldN_formatXYN : fieldN (formatXYN t x y n) = n :=
  congrArg BitVec.toFin (fieldFn_formatXY t (BitVec.ofFin (w := 4) n) x y)

/-- The two bytes of a word make the word again (R52). -/
theorem wordOfBytes_bytesOfWord (op : Word) : wordOfBytes (op.extractLsb' 8 8) (op.extractLsb' 0 8) = op := by
  unfold wordOfBytes
  apply BitVec.eq_of_toNat_eq
  rw [BitVec.toNat_append]
  simp only [BitVec.extractLsb'_toNat, Nat.shiftRight_zero]
  have h1 : op.toNat >>> 8 % 2 ^ 8 = op.toNat >>> 8 :=
    Nat.mod_eq_of_lt (by rw [Nat.shiftRight_eq_div_pow]; have := op.isLt; omega)
  rw [h1, ← Nat.shiftLeft_add_eq_or_of_lt (Nat.mod_lt _ (by norm_num)), Nat.shiftLeft_eq, Nat.shiftRight_eq_div_pow]
  omega

/-- Decoding the two bytes of a word is decoding the word. -/
theorem decodeBytes_bytesOfWord (op : Word) (rest : List Byte) :
    decodeBytes (bytesOfWord op ++ rest) = (decode op).map (fun i => (i, rest)) := by
  show (match decode (wordOfBytes (op.extractLsb' 8 8) (op.extractLsb' 0 8)) with
    | .ok i => Except.ok (i, rest)
    | .error e => .error e) = _
  rw [wordOfBytes_bytesOfWord]
  cases decode op <;> rfl

/-! ### Words from their fields, and the masks of R76 -/

/-- The fields of format `A` make the word again. -/
theorem formatA_fields (op : Word) : formatA (fieldT op) (fieldNNN op) = op := by
  unfold formatA fieldT fieldNNN
  rw [BitVec.extractLsb'_append_extractLsb'_eq_extractLsb' (by rfl)]
  simp

/-- The fields of formats `XI` and `XF` make the word again. -/
theorem formatXI_fields (op : Word) : formatXI (fieldT op) (fieldX op) (fieldNN op) = op := by
  show op.extractLsb' 12 4 ++ op.extractLsb' 8 4 ++ op.extractLsb' 0 8 = op
  rw [BitVec.extractLsb'_append_extractLsb'_eq_extractLsb' (by rfl),
    BitVec.extractLsb'_append_extractLsb'_eq_extractLsb' (by rfl)]
  simp

/-- The fields of formats `XY` and `XYN` make the word again. -/
theorem formatXY_fields (op : Word) : formatXY (fieldT op) (fieldX op) (fieldY op) (fieldFn op) = op := by
  show op.extractLsb' 12 4 ++ op.extractLsb' 8 4 ++ op.extractLsb' 4 4 ++ op.extractLsb' 0 4 = op
  rw [BitVec.extractLsb'_append_extractLsb'_eq_extractLsb' (by rfl),
    BitVec.extractLsb'_append_extractLsb'_eq_extractLsb' (by rfl), BitVec.extractLsb'_append_extractLsb'_eq_extractLsb' (by rfl)]
  simp

/-- Two concatenations are equal exactly when their parts are. -/
theorem append_inj {m n : Nat} (a a' : BitVec m) (b b' : BitVec n) : a ++ b = a' ++ b' ↔ a = a' ∧ b = b' := by
  refine ⟨fun h => ?_, by rintro ⟨rfl, rfl⟩; rfl⟩
  have h1 := congrArg (BitVec.extractLsb' n m) h
  have h2 := congrArg (BitVec.extractLsb' 0 n) h
  simp only [BitVec.extractLsb'_append_eq_right, BitVec.extractLsb'_append_eq_left] at h1 h2
  exact ⟨h1, h2⟩

theorem and_nibbleOnes (t : Nibble) : t &&& 0xF#4 = t := BitVec.and_allOnes

theorem and_byteOnes (b : Byte) : b &&& 0xFF#8 = b := BitVec.and_allOnes

/-- Mask 0xF000 compares the family nibble. -/
theorem mask_T (op : Word) (t : Nibble) : op &&& 0xF000#16 = t ++ 0#12 ↔ fieldT op = t := by
  conv_lhs => rw [← formatA_fields op]
  rw [show (0xF000#16) = 0xF#4 ++ 0#12 from rfl]
  unfold formatA
  rw [BitVec.and_append, and_nibbleOnes, append_inj]
  simp

/-- Mask 0xF00F compares the family nibble and the function nibble. -/
theorem mask_TFn (op : Word) (t fn : Nibble) :
    op &&& 0xF00F#16 = t ++ 0#4 ++ 0#4 ++ fn ↔ fieldT op = t ∧ fieldFn op = fn := by
  conv_lhs => rw [← formatXY_fields op]
  rw [show (0xF00F#16) = 0xF#4 ++ 0#4 ++ 0#4 ++ 0xF#4 from rfl]
  unfold formatXY
  rw [BitVec.and_append, BitVec.and_append, BitVec.and_append, and_nibbleOnes, and_nibbleOnes, append_inj, append_inj, append_inj]
  simp

/-- Mask 0xF0FF compares the family nibble and the function byte. -/
theorem mask_TNN (op : Word) (t : Nibble) (nn : Byte) :
    op &&& 0xF0FF#16 = t ++ 0#4 ++ nn ↔ fieldT op = t ∧ fieldNN op = nn := by
  conv_lhs => rw [← formatXI_fields op]
  rw [show (0xF0FF#16) = 0xF#4 ++ 0#4 ++ 0xFF#8 from rfl]
  unfold formatXI
  rw [BitVec.and_append, BitVec.and_append, and_nibbleOnes, and_byteOnes, append_inj, append_inj]
  simp

end Sys2Proof
end

