-- ==== Sys2Proof/Laws/Display.lean ====
section
/-! SUPPORT. What the display operations do: a pixel read after a pixel write, the pixels of a sprite, a whole draw. -/

namespace Sys2Proof.Machine

/-- A pixel read after a pixel write. -/
theorem Framebuffer.get_put (g : Framebuffer) (p q : Pixel) (b : Bool) :
    (g.put p b).get q = if q = p then b else g.get q := by
  unfold Framebuffer.get Framebuffer.put
  obtain ⟨px, py⟩ := p
  obtain ⟨qx, qy⟩ := q
  simp only [Pixel.mk.injEq, Fin.getElem_fin]
  by_cases hx : qx = px
  · subst hx
    by_cases hy : qy = py
    · subst hy; simp
    · have : py.val ≠ qy.val := fun e => hy (Fin.ext e.symm)
      simp [hy, Vector.getElem_set_ne, this]
  · have : px.val ≠ qx.val := fun e => hx (Fin.ext e.symm)
    simp [hx, Vector.getElem_set_ne, this]

/-- Two framebuffers with the same pixels are equal. -/
theorem Framebuffer.ext_get {g h : Framebuffer} (e : ∀ p, g.get p = h.get p) : g = h := by
  refine Vector.ext fun i hi => Vector.ext fun j hj => ?_
  exact e ⟨⟨i, hi⟩, ⟨j, hj⟩⟩

@[simp] theorem Framebuffer.get_blank (p : Pixel) : Framebuffer.blank.get p = false := by
  simp [Framebuffer.get, Framebuffer.blank]

/-- The set pixels of a row: exactly the set bits, column `c` from bit `7 - c`. -/
theorem mem_rowPixels (x0 y : Nat) (row : Byte) (p : Nat × Nat) :
    p ∈ rowPixels x0 y row ↔ ∃ c, c < 8 ∧ row.getLsbD (7 - c) = true ∧ p = (x0 + c, y) := by
  unfold rowPixels
  simp only [List.mem_map, List.mem_filter, List.mem_range]
  constructor
  · rintro ⟨c, ⟨h1, h2⟩, rfl⟩; exact ⟨c, h1, h2, rfl⟩
  · rintro ⟨c, h1, h2, rfl⟩; exact ⟨c, ⟨h1, h2⟩, rfl⟩

/-- The set pixels of a sprite: exactly the set bits of its rows. -/
theorem mem_spritePixels (x0 y0 : Nat) (rows : List Byte) (p : Nat × Nat) :
    p ∈ spritePixels x0 y0 rows ↔
      ∃ r, ∃ h : r < rows.length, ∃ c, c < 8 ∧ (rows[r]'h).getLsbD (7 - c) = true ∧ p = (x0 + c, y0 + r) := by
  induction rows generalizing y0 with
  | nil => simp [spritePixels]
  | cons row rows ih =>
    simp only [spritePixels, List.mem_append, mem_rowPixels, ih]
    constructor
    · rintro (⟨c, h⟩ | ⟨r, hr, c, h1, h2, h3⟩)
      · exact ⟨0, by simp, c, by simpa using h⟩
      · exact ⟨r + 1, by simpa using hr, c, h1, by simpa using h2, by rw [h3]; ext <;> simp; omega⟩
    · rintro ⟨r, hr, c, h1, h2, h3⟩
      cases r with
      | zero => exact .inl ⟨c, h1, by simpa using h2, by simpa using h3⟩
      | succ r => exact .inr ⟨r, by simpa using hr, c, h1, by simpa using h2, by rw [h3]; ext <;> simp; omega⟩

/-- A sprite names no pixel twice (R152). -/
theorem nodup_spritePixels (x0 y0 : Nat) (rows : List Byte) : (spritePixels x0 y0 rows).Nodup := by
  induction rows generalizing y0 with
  | nil => simp [spritePixels]
  | cons row rows ih =>
    refine List.nodup_append.2 ⟨?_, ih _, ?_⟩
    · refine (List.nodup_range.filter _).map fun a b h => ?_
      simpa using h
    · intro p hp q hq e
      obtain ⟨c, -, -, rfl⟩ := (mem_rowPixels _ _ _ _).1 hp
      obtain ⟨r, -, c', -, -, rfl⟩ := (mem_spritePixels _ _ _ _).1 hq
      simp at e; omega

/-- The pixels of the grid are the coordinates, one for one and in order. -/
theorem onGrid_some (cs : List (Nat × Nat)) (ps : List Pixel) (h : onGrid cs = some ps) :
    ps.map (fun p => (p.x.val, p.y.val)) = cs := by
  induction cs generalizing ps with
  | nil => simp [onGrid] at h; subst h; rfl
  | cons c cs ih =>
    unfold onGrid at h
    split at h
    · split at h
      · next ps' h' => simp at h; subst h; simp [ih ps' h']
      · simp at h
    · simp at h

/-- Coordinates are refused exactly when one lies outside the grid. -/
theorem onGrid_none (cs : List (Nat × Nat)) : onGrid cs = none ↔ ∃ c ∈ cs, ¬ (c.1 < 64 ∧ c.2 < 32) := by
  induction cs with
  | nil => simp [onGrid]
  | cons c cs ih =>
    unfold onGrid
    split
    · next h =>
      split
      · next ps h' =>
        have : ¬ ∃ d ∈ cs, ¬ (d.1 < 64 ∧ d.2 < 32) := fun e => by simp [ih.2 e] at h'
        simp only [List.mem_cons, exists_eq_or_imp, h, reduceCtorEq, false_iff]
        rintro (e | e)
        · exact e (by simp)
        · exact this e
      · next h' => simpa [List.mem_cons] using Or.inr (ih.1 h')
    · next h => simpa [List.mem_cons] using Or.inl (by simpa using h)

/-- The set pixels of a sprite in memory, row by row from the top, left to right (R150, R152). -/
theorem spritePixels_readBytes (x0 y0 : Nat) (m : Memory) (a n : Nat) :
    spritePixels x0 y0 (m.readBytes a n) =
      (List.range n).flatMap fun r =>
        ((List.range 8).filter fun c => (m.read (a + r)).getLsbD (7 - c)).map fun c => (x0 + c, y0 + r) := by
  induction n generalizing a y0 with
  | zero => rfl
  | succ n ih =>
    rw [Memory.readBytes, spritePixels, ih, List.range_succ_eq_map (n := n), List.flatMap_cons, List.flatMap_map]
    congr 1
    simp only [Nat.succ_eq_add_one, Nat.add_assoc, Nat.add_comm 1]

/-- The set pixels of a sprite in memory: exactly the set bits of the bytes read. -/
theorem mem_spritePixels_readBytes (x0 y0 : Nat) (m : Memory) (a n : Nat) (p : Nat × Nat) :
    p ∈ spritePixels x0 y0 (m.readBytes a n) ↔
      ∃ r c, r < n ∧ c < 8 ∧ (m.read (a + r)).getLsbD (7 - c) = true ∧ p = (x0 + c, y0 + r) := by
  rw [spritePixels_readBytes]
  simp only [List.mem_flatMap, List.mem_range, List.mem_map, List.mem_filter]
  constructor
  · rintro ⟨r, hr, c, ⟨hc, hb⟩, rfl⟩; exact ⟨r, c, hr, hc, hb, rfl⟩
  · rintro ⟨r, c, hr, hc, hb, rfl⟩; exact ⟨r, hr, c, ⟨hc, hb⟩, rfl⟩

/-- The pixels of a sprite on the grid are distinct. -/
theorem nodup_onGrid (x0 y0 : Nat) (rows : List Byte) (ps : List Pixel)
    (h : onGrid (spritePixels x0 y0 rows) = some ps) : ps.Nodup := by
  have h1 := nodup_spritePixels x0 y0 rows
  rw [← onGrid_some _ _ h] at h1
  exact h1.of_map _

/-- A pixel of the grid is drawn exactly when its coordinates are. -/
theorem mem_onGrid (cs : List (Nat × Nat)) (ps : List Pixel) (h : onGrid cs = some ps) (p : Pixel) :
    p ∈ ps ↔ (p.x.val, p.y.val) ∈ cs := by
  rw [← onGrid_some _ _ h, List.mem_map]
  refine ⟨fun hp => ⟨p, hp, rfl⟩, ?_⟩
  rintro ⟨q, hq, e⟩
  obtain ⟨e1, e2⟩ := Prod.mk.inj e
  obtain ⟨qx, qy⟩ := q
  obtain ⟨px, py⟩ := p
  rwa [show qx = px from Fin.ext e1, show qy = py from Fin.ext e2] at hq

/-- A draw changes nothing but registers, framebuffer and log. -/
theorem State.drawPixels_eq (ps : List Pixel) (s : State) :
    s.drawPixels ps = { s with v := (s.drawPixels ps).v, fb := (s.drawPixels ps).fb, log := (s.drawPixels ps).log } := by
  induction ps generalizing s with
  | nil => rfl
  | cons p ps ih =>
    unfold State.drawPixels
    rw [ih]
    unfold State.drawPixel State.toggle State.setV
    split <;> rfl

theorem State.drawPixel_fb (s : State) (p : Pixel) : (s.drawPixel p).fb = s.fb.put p (!s.fb.get p) := by
  unfold State.drawPixel; split <;> rfl

theorem State.drawPixel_log (s : State) (p : Pixel) : (s.drawPixel p).log = s.log ++ [⟨p, !s.fb.get p⟩] := by
  unfold State.drawPixel; split <;> rfl

theorem State.drawPixel_getV (s : State) (p : Pixel) (r : Reg) :
    (s.drawPixel p).getV r = if r = VF ∧ s.fb.get p = true then 1 else s.getV r := by
  unfold State.drawPixel
  rw [State.getV_toggle]
  split
  · next h => simp [State.getV_setV, h]
  · next h => simp [h]

/-- The framebuffer after a draw of distinct pixels: exactly those are toggled. -/
theorem State.drawPixels_fb (ps : List Pixel) (s : State) (h : ps.Nodup) (q : Pixel) :
    (s.drawPixels ps).fb.get q = (s.fb.get q != decide (q ∈ ps)) := by
  induction ps generalizing s with
  | nil => simp [State.drawPixels]
  | cons p ps ih =>
    obtain ⟨h1, h2⟩ := List.nodup_cons.1 h
    rw [State.drawPixels, ih _ h2, State.drawPixel_fb, Framebuffer.get_put]
    by_cases e : q = p
    · subst e; simp [h1]
    · simp [e]

/-- The log after a draw of distinct pixels: each pixel in order, with its new value (R34, R152). -/
theorem State.drawPixels_log (ps : List Pixel) (s : State) (h : ps.Nodup) :
    (s.drawPixels ps).log = s.log ++ ps.map (fun p => ⟨p, !s.fb.get p⟩) := by
  induction ps generalizing s with
  | nil => simp [State.drawPixels]
  | cons p ps ih =>
    obtain ⟨h1, h2⟩ := List.nodup_cons.1 h
    rw [State.drawPixels, ih _ h2, State.drawPixel_log, State.drawPixel_fb]
    simp only [List.map_cons, List.append_assoc, List.singleton_append, List.append_cancel_left_eq, List.cons.injEq,
      true_and]
    refine List.map_congr_left fun q hq => ?_
    rw [Framebuffer.get_put, if_neg (fun (e : q = p) => h1 (e ▸ hq))]

/-- The registers after a draw of distinct pixels: VF is 1 where one of them was on, else as before. -/
theorem State.drawPixels_getV (ps : List Pixel) (s : State) (h : ps.Nodup) (r : Reg) :
    (s.drawPixels ps).getV r = if r = VF ∧ ∃ p ∈ ps, s.fb.get p = true then 1 else s.getV r := by
  induction ps generalizing s with
  | nil => simp [State.drawPixels]
  | cons p ps ih =>
    obtain ⟨h1, h2⟩ := List.nodup_cons.1 h
    rw [State.drawPixels, ih _ h2, State.drawPixel_getV]
    have : (∃ q ∈ ps, (s.drawPixel p).fb.get q = true) ↔ ∃ q ∈ ps, s.fb.get q = true := by
      refine exists_congr fun q => and_congr_right fun hq => ?_
      rw [State.drawPixel_fb, Framebuffer.get_put, if_neg (fun (e : q = p) => h1 (e ▸ hq))]
    simp only [this, List.mem_cons, exists_eq_or_imp]
    by_cases hr : r = VF <;> by_cases hp : s.fb.get p = true <;> simp [hr, hp]

/-- The renderer's cell after a list of updates: the last update of that cell, or the cell as it was (R193). -/
theorem get_foldl_applyEntry (g : Framebuffer) (l : List LogEntry) (p : Pixel) :
    (l.foldl applyEntry g).get p =
      ((l.filter (fun e => e.pixel = p)).getLast?.map LogEntry.v).getD (g.get p) := by
  induction l generalizing g with
  | nil => rfl
  | cons e l ih =>
    rw [List.foldl_cons, ih]
    simp only [List.filter_cons]
    split
    · next h =>
      simp only [decide_eq_true_eq] at h
      simp only [applyEntry, Framebuffer.get_put, h, if_true, List.getLast?_cons]
      cases (List.filter (fun e => decide (e.pixel = p)) l).getLast? <;> simp
    · next h =>
      simp only [decide_eq_true_eq] at h
      simp only [applyEntry, Framebuffer.get_put, if_neg (Ne.symm h)]

end Sys2Proof.Machine
end

