-- ==== Sys2Proof/Laws/Step.lean ====
section
/-! SUPPORT. What a fetch, a `Step`, an event and a step of the machine can do, one lemma each; and the induction over
reachable states, once. -/

namespace Sys2Proof.Machine

variable (s : State)

theorem State.halted_iff : s.halted = true ↔ ¬ s.Running := by simp [State.halted]

theorem State.halted_false_iff : s.halted = false ↔ s.Running := by simp [State.halted]

/-- A fetch fails exactly past 0xFFE (R53). -/
theorem State.fetch_none (h : 0xFFE < s.pc.toNat) : s.fetch = none := by simp [State.fetch, h]

/-- A fetch reads the two bytes at `pc`, big-endian (R52). -/
theorem State.fetch_some (h : s.pc.toNat ≤ 0xFFE) :
    s.fetch = some (s.mem.read s.pc.toNat ++ s.mem.read (s.pc.toNat + 1)) := by
  simp [State.fetch, Nat.not_lt.2 h, wordOfBytes]

/-- A fetch depends on `pc` and memory alone. -/
theorem State.fetch_congr {s t : State} (hp : t.pc = s.pc) (hm : t.mem = s.mem) : t.fetch = s.fetch := by
  unfold State.fetch; rw [hp, hm]

@[simp] theorem State.fetch_closeLoad : s.closeLoad.fetch = s.fetch := rfl
@[simp] theorem State.fetch_takeEvent : s.takeEvent.fetch = s.fetch := rfl

/-- What running one instruction can be: a fetch fault, an unknown word, or the meaning of the decoded instruction. -/
theorem State.runOne_cases :
    (s.fetch = none ∧ s.runOne = .next (s.raise .fetchOutOfRange 0x0000)) ∨
    (∃ op e, s.fetch = some op ∧ decode op = .error e ∧ s.runOne = .next (s.raise .unknownOpcode op)) ∨
    (∃ op i, s.fetch = some op ∧ decode op = .ok i ∧ s.runOne = exec i s) := by
  unfold State.runOne
  cases hf : s.fetch with
  | none => exact .inl ⟨rfl, rfl⟩
  | some op =>
    cases hd : decode op with
    | error e => exact .inr (.inl ⟨op, e, rfl, hd, by simp only [hd]⟩)
    | ok i => exact .inr (.inr ⟨op, i, rfl, hd, by simp only [hd]⟩)

theorem State.runOne_fetch_none (h : s.fetch = none) : s.runOne = .next (s.raise .fetchOutOfRange 0x0000) := by
  simp only [State.runOne, h]

theorem State.runOne_error {op : Word} {e : DecodeError} (h : s.fetch = some op) (hd : decode op = .error e) :
    s.runOne = .next (s.raise .unknownOpcode op) := by
  simp only [State.runOne, h, hd]

theorem State.runOne_ok {op : Word} {i : Instr} (h : s.fetch = some op) (hd : decode op = .ok i) :
    s.runOne = exec i s := by
  simp only [State.runOne, h, hd]

theorem cpuStep_halted (h : ¬ s.Running) : cpuStep s = .next s := by
  simp [cpuStep, s.halted_iff.2 h]

theorem cpuStep_running (h : s.Running) : cpuStep s = s.closeLoad.runOne := by
  simp [cpuStep, s.halted_false_iff.2 h]

theorem tick_running (h : s.Running) : tick s = { s with dt := countDown s.dt, st := countDown s.st } := by
  simp [tick, s.halted_false_iff.2 h]

theorem flush_running (h : s.Running) : flush s = { s with log := [], drawReq := false, clearReq := false } := by
  simp [flush, s.halted_false_iff.2 h]

theorem setKey_running (c : Key) (p : Bool) (h : s.Running) : setKey c p s = s.putKey c p := by
  simp [setKey, s.halted_false_iff.2 h]

/-- A counter goes down by one with a floor at 0. -/
theorem toNat_countDown (b : Byte) : (countDown b).toNat = b.toNat - 1 := by
  unfold countDown
  split
  · next h => subst h; rfl
  · next h => bv_omega

/-- When a load is accepted (R204 to R206). -/
theorem loadAccepted_iff (bytes : List Byte) :
    loadAccepted bytes s = true ↔ s.Running ∧ s.loadOpen = true ∧ bytes.length ≤ 3584 := by
  unfold loadAccepted
  rw [Bool.and_eq_true, Bool.and_eq_true, decide_eq_true_iff, Bool.not_eq_true', s.halted_false_iff, and_assoc]
  rfl

theorem loadProgram_accepted (bytes : List Byte) (h : loadAccepted bytes s = true) :
    loadProgram bytes s = (s.setMem (s.mem.writeBytes 0x200 bytes)).closeLoad := by
  unfold loadProgram; rw [if_pos h]; rfl

theorem loadProgram_refused (bytes : List Byte) (h : loadAccepted bytes s = false) : loadProgram bytes s = s := by
  unfold loadProgram; rw [h]; rfl

/-- The state with its oldest event taken, when none is scheduled, is the state itself. -/
theorem State.takeEvent_nil (h : s.schedule = []) : s.takeEvent = s := by
  cases s; simp_all [State.takeEvent]

/-- A step performs the next event. -/
theorem step_def : step s = performEvent s.nextEvent s.takeEvent := rfl

/-- Every word is a next instruction's or a rejection that names it. -/
theorem decode_error {op : Word} {e : DecodeError} (h : decode op = .error e) : e = .unknownOpcode op := by
  unfold decode decode0 decode8 decodeE decodeF at h
  (repeat' split at h) <;> simp_all

/-- A property that holds at reset, whatever is scheduled, and that every step keeps holds in every reachable state. -/
theorem Reachable.of_invariant (P : State → Prop) (h0 : ∀ es, P { State.reset with schedule := es })
    (hs : ∀ s t, P s → Machine.step s = .next t → P t) {s : State} (h : Reachable s) : P s := by
  induction h with
  | reset es => exact h0 es
  | step _ e ih => exact hs _ _ ih e

end Sys2Proof.Machine
end

