-- ==== Sys2Proof/Laws/Exec.lean ====
section
/-! SUPPORT. What each meaning with more than one outcome can do: one inversion lemma each, guards included, so that no
later proof unfolds the meaning. The other meanings have one outcome and are read off by `rfl`. -/

namespace Sys2Proof.Machine

variable (s : State)

/-- `00EE`: a pop, or `StackUnderflow`. -/
theorem execRet_cases :
    (s.sp.val = 0 ∧ execRet s = .next (s.raise .stackUnderflow 0x00EE)) ∨
    (s.sp.val ≠ 0 ∧ execRet s = .next
      { s with sp := ⟨s.sp.val - 1, by have := s.sp.isLt; omega⟩
               pc := s.stack[s.sp.val - 1]'(by have := s.sp.isLt; omega) + 2 }) := by
  unfold execRet
  cases hp : s.pop with
  | none => exact .inl ⟨(State.pop_none s).1 hp, rfl⟩
  | some wt =>
    obtain ⟨w, t⟩ := wt
    obtain ⟨h, rfl, rfl⟩ := State.pop_some s w t hp
    exact .inr ⟨h, rfl⟩

/-- `2NNN`: a push and a jump, or `StackOverflow`. -/
theorem execCall_cases (nnn : Addr) :
    (s.sp.val = 16 ∧ execCall nnn s = .next (s.raise .stackOverflow (encode (.call nnn)))) ∨
    (∃ _ : s.sp.val < 16, execCall nnn s = .next
      { s with stack := s.stack.set s.sp.val s.pc, sp := ⟨s.sp.val + 1, by omega⟩, pc := nnn.setWidth 16 }) := by
  unfold execCall
  cases hp : s.push s.pc with
  | none => exact .inl ⟨(State.push_none s _).1 hp, rfl⟩
  | some t =>
    obtain ⟨h, rfl⟩ := State.push_some s _ t hp
    exact .inr ⟨h, rfl⟩

/-- `FX65`: all registers loaded, or `MemOutOfRange`. -/
theorem execLdRegs_cases (x : Reg) :
    (0xFFF < s.i.toNat + x.val ∧ execLdRegs x s = .next (s.raise .memOutOfRange (encode (.ldRegs x)))) ∨
    (s.i.toNat + x.val ≤ 0xFFF ∧
      execLdRegs x s = .next (s.loadRegs 0 (s.mem.readBytes s.base (x.val + 1))).advance) := by
  unfold execLdRegs
  cases hc : checkRange readCheck s.base (x.val + 1) with
  | some c =>
    obtain ⟨k, -, hk⟩ := checkRange_some _ _ _ _ hc
    have : c = .memOutOfRange := by unfold readCheck at hk; split at hk <;> simp_all
    subst this
    refine .inl ⟨?_, rfl⟩
    by_contra hlt
    rw [(checkRange_read_none _ _).2 (.inr (by unfold State.base; omega))] at hc
    simp at hc
  | none =>
    have := (checkRange_read_none _ _).1 hc
    unfold State.base at this
    exact .inr ⟨by omega, rfl⟩

/-- `DXYN`: the sprite out of memory, a set bit off the grid, or the toggles of the sprite's pixels. -/
theorem execDrw_cases (x y : Reg) (n : Fin 16) :
    ((n.val ≠ 0 ∧ 0x1000 < s.i.toNat + n.val) ∧
      execDrw x y n s = .next (s.raise .memOutOfRange (encode (.drw x y n)))) ∨
    ((n.val = 0 ∨ s.i.toNat + n.val ≤ 0x1000) ∧
      onGrid (spritePixels (s.getV x).toNat (s.getV y).toNat (s.spriteRows n)) = none ∧
      execDrw x y n s = .next (s.raise .pixelOutOfRange (encode (.drw x y n)))) ∨
    ((n.val = 0 ∨ s.i.toNat + n.val ≤ 0x1000) ∧
      ∃ ps, onGrid (spritePixels (s.getV x).toNat (s.getV y).toNat (s.spriteRows n)) = some ps ∧
        execDrw x y n s = .next ((s.setV VF 0).drawPixels ps).requestDraw.advance) := by
  unfold execDrw
  cases hc : checkRange readCheck s.base n.val with
  | some c =>
    obtain ⟨k, -, hk⟩ := checkRange_some _ _ _ _ hc
    have : c = .memOutOfRange := by unfold readCheck at hk; split at hk <;> simp_all
    subst this
    refine .inl ⟨?_, rfl⟩
    by_contra hlt
    rw [(checkRange_read_none _ _).2 (by unfold State.base; omega)] at hc
    simp at hc
  | none =>
    have := (checkRange_read_none _ _).1 hc
    unfold State.base at this
    cases ho : onGrid (spritePixels (s.getV x).toNat (s.getV y).toNat (s.spriteRows n)) with
    | none => exact .inr (.inl ⟨this, rfl, rfl⟩)
    | some ps => exact .inr (.inr ⟨this, ps, rfl, rfl⟩)

/-- `EX9E`: a skip on the key, or `KeyIndexOutOfRange`. -/
theorem execSkp_cases (x : Reg) :
    (0x0F < (s.getV x).toNat ∧ execSkp x s = .next (s.raise .keyIndexOutOfRange (encode (.skp x)))) ∨
    (∃ k : Key, (s.getV x).toNat = k.val ∧ execSkp x s = .next (s.skipIf (s.keyDown k))) := by
  unfold execSkp
  cases hk : keyOf (s.getV x) with
  | none => exact .inl ⟨(keyOf_none _).1 hk, rfl⟩
  | some k => exact .inr ⟨k, (keyOf_some _ _).1 hk, rfl⟩

/-- `EXA1`: a skip on the key not pressed, or `KeyIndexOutOfRange`. -/
theorem execSknp_cases (x : Reg) :
    (0x0F < (s.getV x).toNat ∧ execSknp x s = .next (s.raise .keyIndexOutOfRange (encode (.sknp x)))) ∨
    (∃ k : Key, (s.getV x).toNat = k.val ∧ execSknp x s = .next (s.skipIf (!s.keyDown k))) := by
  unfold execSknp
  cases hk : keyOf (s.getV x) with
  | none => exact .inl ⟨(keyOf_none _).1 hk, rfl⟩
  | some k => exact .inr ⟨k, (keyOf_some _ _).1 hk, rfl⟩

/-- `FX0A`: the least pressed key, or a wait. -/
theorem execLdVxK_cases (x : Reg) :
    ((∀ k, s.keyDown k = false) ∧ execLdVxK x s = .next s) ∨
    (∃ k : Key, (s.keyDown k = true ∧ ∀ j, j < k → s.keyDown j = false) ∧
      execLdVxK x s = .next (s.setV x (BitVec.ofNat 8 k.val)).advance) := by
  unfold execLdVxK
  cases hk : s.lowestKey with
  | none => exact .inl ⟨(State.lowestKey_none s).1 hk, rfl⟩
  | some k => exact .inr ⟨k, (State.lowestKey_some s k).1 hk, rfl⟩

theorem checkRange_write_cause (a n : Nat) (c : Cause) (h : checkRange writeCheck a n = some c) : c ≠ .noFault := by
  obtain ⟨k, -, hk⟩ := checkRange_some _ _ _ _ h
  unfold writeCheck at hk
  rintro rfl
  split at hk
  · simp at hk
  · split at hk <;> simp at hk

/-- An instruction leaves the fault record alone, or the state after it is the state before it with a fault raised on the
instruction's own word. -/
theorem exec_fault_or (i : Instr) (t : State) (h : exec i s = .next t) :
    t.fault = s.fault ∨ ∃ c, c ≠ .noFault ∧ t = s.raise c (encode i) := by
  cases i with
  | ret =>
    rcases execRet_cases s with ⟨-, e⟩ | ⟨-, e⟩ <;> (cases h.symm.trans e)
    · exact .inr ⟨_, by simp, rfl⟩
    · exact .inl rfl
  | call n =>
    rcases execCall_cases s n with ⟨-, e⟩ | ⟨_, e⟩ <;> (cases h.symm.trans e)
    · exact .inr ⟨_, by simp, rfl⟩
    · exact .inl rfl
  | drw x y n =>
    rcases execDrw_cases s x y n with ⟨-, e⟩ | ⟨-, -, e⟩ | ⟨-, _, -, e⟩ <;> (cases h.symm.trans e)
    · exact .inr ⟨_, by simp, rfl⟩
    · exact .inr ⟨_, by simp, rfl⟩
    · left; simp; rw [State.drawPixels_eq]; rfl
  | skp x =>
    rcases execSkp_cases s x with ⟨-, e⟩ | ⟨_, -, e⟩ <;> (cases h.symm.trans e)
    · exact .inr ⟨_, by simp, rfl⟩
    · exact .inl rfl
  | sknp x =>
    rcases execSknp_cases s x with ⟨-, e⟩ | ⟨_, -, e⟩ <;> (cases h.symm.trans e)
    · exact .inr ⟨_, by simp, rfl⟩
    · exact .inl rfl
  | ldVxK x => rcases execLdVxK_cases s x with ⟨-, e⟩ | ⟨_, -, e⟩ <;> (cases h.symm.trans e) <;> exact .inl rfl
  | ldB x =>
    rcases storeAtI_cases s (encode (.ldB x)) (bcdDigits (s.getV x)) with ⟨_, hc, e⟩ | ⟨-, e⟩ <;> (cases h.symm.trans e)
    · exact .inr ⟨_, checkRange_write_cause _ _ _ hc, rfl⟩
    · exact .inl rfl
  | stRegs x =>
    rcases storeAtI_cases s (encode (.stRegs x)) (s.regsThrough x) with ⟨_, hc, e⟩ | ⟨-, e⟩ <;> (cases h.symm.trans e)
    · exact .inr ⟨_, checkRange_write_cause _ _ _ hc, rfl⟩
    · exact .inl rfl
  | ldRegs x =>
    rcases execLdRegs_cases s x with ⟨-, e⟩ | ⟨-, e⟩ <;> (cases h.symm.trans e)
    · exact .inr ⟨_, by simp, rfl⟩
    · left; simp; rw [State.loadRegs_eq]
  | _ => cases h; exact .inl rfl

/-- What a step can do, as an induction: a property of states is kept by every step if each of the pieces a step is made
of keeps it. -/
theorem step_preserves (P : State → Prop) (t : State) (h : step s = .next t) (hP : P s)
    (htake : ∀ s, P s → P s.takeEvent)
    (hclose : ∀ s, P s → P s.closeLoad) (hraise : ∀ s c o, P s → P (s.raise c o))
    (hexec : ∀ i s t op, P s → s.fetch = some op → decode op = .ok i → exec i s = .next t → P t)
    (hreset : ∀ s, P s → P s.resetCore)
    (hload : ∀ s b, P s → b.length ≤ 3584 → P (s.setMem (s.mem.writeBytes 0x200 b)))
    (htick : ∀ s d t, P s → P { s with dt := d, st := t })
    (hkey : ∀ s c p, P s → P (s.putKey c p))
    (hflush : ∀ s, P s → P { s with log := [], drawReq := false, clearReq := false }) : P t := by
  have hP' := htake s hP
  rw [step_def] at h
  cases he : s.nextEvent with
  | step =>
    rw [he] at h
    change cpuStep s.takeEvent = _ at h
    unfold cpuStep at h; split at h
    · cases h; exact hP'
    · rcases State.runOne_cases s.takeEvent.closeLoad with ⟨-, e⟩ | ⟨_, _, -, -, e⟩ | ⟨_, i, hf, hd, e⟩
      · cases h.symm.trans e; exact hraise _ _ _ (hclose _ hP')
      · cases h.symm.trans e; exact hraise _ _ _ (hclose _ hP')
      · rw [e] at h; exact hexec _ _ _ _ (hclose _ hP') hf hd h
  | loadProgram bytes =>
    rw [he] at h; cases h
    cases hl : loadAccepted bytes s.takeEvent with
    | false => rw [loadProgram_refused _ _ hl]; exact hP'
    | true => rw [loadProgram_accepted _ _ hl]; exact hclose _ (hload _ _ hP' ((loadAccepted_iff _ _).1 hl).2.2)
  | tick => rw [he] at h; cases h; unfold tick; split; exact hP'; exact htick _ _ _ hP'
  | flush => rw [he] at h; cases h; unfold flush; split; exact hP'; exact hflush _ hP'
  | setKey c p => rw [he] at h; cases h; unfold setKey; split; exact hP'; exact hkey _ _ _ hP'
  | reset => rw [he] at h; cases h; exact hreset _ hP'

end Sys2Proof.Machine
end

