-- ==== Sys2Proof/Laws/PerInstr.lean ====
section
/-! SUPPORT. The per-instruction family `Fits`: every instruction is well-formed, whatever its operands (spec
30_encoding.md R75: all values are legal in every field). One lemma per constructor. -/

namespace Sys2Proof.Laws.Fits

/-- Every operand of the instruction fits its field. -/
def Statement (i : Instr) : Prop := i.wf = true

theorem reg_fits (x : Reg) : (Field.mk .reg x.val).fits = true := decide_eq_true x.isLt
theorem count_fits (n : Fin 16) : (Field.mk .count n.val).fits = true := decide_eq_true n.isLt
theorem byte_fits (b : Byte) : (Field.mk .byte b.toNat).fits = true := decide_eq_true b.isLt
theorem addr_fits (a : Addr) : (Field.mk .addr a.toNat).fits = true := decide_eq_true a.isLt

theorem fits_addr (i : Instr) (a : Addr) (h : i.fields = [⟨.addr, a.toNat⟩]) : Statement i := by
  simp [Statement, Instr.wf, h, Field.allFit, addr_fits]

theorem fits_reg (i : Instr) (x : Reg) (h : i.fields = [⟨.reg, x.val⟩]) : Statement i := by
  simp [Statement, Instr.wf, h, Field.allFit, reg_fits]

theorem fits_regByte (i : Instr) (x : Reg) (b : Byte) (h : i.fields = [⟨.reg, x.val⟩, ⟨.byte, b.toNat⟩]) :
    Statement i := by
  simp [Statement, Instr.wf, h, Field.allFit, reg_fits, byte_fits]

theorem fits_regReg (i : Instr) (x y : Reg) (h : i.fields = [⟨.reg, x.val⟩, ⟨.reg, y.val⟩]) : Statement i := by
  simp [Statement, Instr.wf, h, Field.allFit, reg_fits]

theorem cls : Statement .cls := rfl
theorem ret : Statement .ret := rfl
theorem jp (nnn : Addr) : Statement (.jp nnn) := fits_addr _ nnn rfl
theorem call (nnn : Addr) : Statement (.call nnn) := fits_addr _ nnn rfl
theorem seImm (x : Reg) (nn : Byte) : Statement (.seImm x nn) := fits_regByte _ x nn rfl
theorem sneImm (x : Reg) (nn : Byte) : Statement (.sneImm x nn) := fits_regByte _ x nn rfl
theorem seReg (x y : Reg) : Statement (.seReg x y) := fits_regReg _ x y rfl
theorem ldImm (x : Reg) (nn : Byte) : Statement (.ldImm x nn) := fits_regByte _ x nn rfl
theorem addImm (x : Reg) (nn : Byte) : Statement (.addImm x nn) := fits_regByte _ x nn rfl
theorem ldReg (x y : Reg) : Statement (.ldReg x y) := fits_regReg _ x y rfl
theorem orReg (x y : Reg) : Statement (.orReg x y) := fits_regReg _ x y rfl
theorem andReg (x y : Reg) : Statement (.andReg x y) := fits_regReg _ x y rfl
theorem xorReg (x y : Reg) : Statement (.xorReg x y) := fits_regReg _ x y rfl
theorem addReg (x y : Reg) : Statement (.addReg x y) := fits_regReg _ x y rfl
theorem subReg (x y : Reg) : Statement (.subReg x y) := fits_regReg _ x y rfl
theorem shr (x y : Reg) : Statement (.shr x y) := fits_regReg _ x y rfl
theorem subnReg (x y : Reg) : Statement (.subnReg x y) := fits_regReg _ x y rfl
theorem shl (x y : Reg) : Statement (.shl x y) := fits_regReg _ x y rfl
theorem sneReg (x y : Reg) : Statement (.sneReg x y) := fits_regReg _ x y rfl
theorem ldI (nnn : Addr) : Statement (.ldI nnn) := fits_addr _ nnn rfl
theorem jpV0 (nnn : Addr) : Statement (.jpV0 nnn) := fits_addr _ nnn rfl
theorem rnd (x : Reg) (nn : Byte) : Statement (.rnd x nn) := fits_regByte _ x nn rfl
theorem drw (x y : Reg) (n : Fin 16) : Statement (.drw x y n) := by
  simp [Statement, Instr.wf, Instr.fields, Field.allFit, reg_fits, count_fits]
theorem skp (x : Reg) : Statement (.skp x) := fits_reg _ x rfl
theorem sknp (x : Reg) : Statement (.sknp x) := fits_reg _ x rfl
theorem ldVxDt (x : Reg) : Statement (.ldVxDt x) := fits_reg _ x rfl
theorem ldVxK (x : Reg) : Statement (.ldVxK x) := fits_reg _ x rfl
theorem ldDt (x : Reg) : Statement (.ldDt x) := fits_reg _ x rfl
theorem ldSt (x : Reg) : Statement (.ldSt x) := fits_reg _ x rfl
theorem addI (x : Reg) : Statement (.addI x) := fits_reg _ x rfl
theorem ldF (x : Reg) : Statement (.ldF x) := fits_reg _ x rfl
theorem ldB (x : Reg) : Statement (.ldB x) := fits_reg _ x rfl
theorem stRegs (x : Reg) : Statement (.stRegs x) := fits_reg _ x rfl
theorem ldRegs (x : Reg) : Statement (.ldRegs x) := fits_reg _ x rfl

end Sys2Proof.Laws.Fits
end

