-- ==== Sys2Proof/Tests/Slice0.lean ====
section
/-! SUPPORT. Small tests. The expected results are those of spec 95_test_vectors.md, whose vector names (A4, B16, …) stand
in the comments, or of the table of 30_encoding.md R76; then a witness for the hypotheses of every statement that has
some. -/

namespace Sys2Proof.Tests

open Sys2Proof Sys2Proof.Machine Sys2Proof.Claims

/-! ### Well-formedness: an ill-formed operand of every field kind is refused (R72) -/

theorem test_wf_refuses_register_16 : Field.allFit [⟨.reg, 1⟩, ⟨.reg, 16⟩] = false := by decide
theorem test_wf_refuses_count_16 : Field.allFit [⟨.reg, 1⟩, ⟨.reg, 2⟩, ⟨.count, 16⟩] = false := by decide
theorem test_wf_refuses_byte_256 : Field.allFit [⟨.reg, 15⟩, ⟨.byte, 256⟩] = false := by decide
theorem test_wf_refuses_addr_4096 : Field.allFit [⟨.addr, 4096⟩] = false := by decide
theorem test_wf_takes_the_largest : Instr.wf (.drw 15 15 15) = true ∧ Instr.wf (.rnd 15 255) = true ∧
    Instr.wf (.jp 4095) = true := by decide

/-! ### Decoding: one word for every row, from the patterns of R76 -/

theorem test_decode_whole_words :
    decode 0b0000000011100000#16 = .ok .cls ∧ decode 0b0000000011101110#16 = .ok .ret := by decide

theorem test_decode_addresses :
    decode 0b0001001000001000#16 = .ok (.jp 0x208) ∧ decode 0b0010001000010100#16 = .ok (.call 0x214) ∧
    decode 0b1010001100000000#16 = .ok (.ldI 0x300) ∧ decode 0b1011111111111111#16 = .ok (.jpV0 0xFFF) := by decide

theorem test_decode_register_byte :
    decode 0b0011000100000100#16 = .ok (.seImm 1 0x04) ∧ decode 0b0100001000001000#16 = .ok (.sneImm 2 0x08) ∧
    decode 0b0110101000000011#16 = .ok (.ldImm 10 0x03) ∧ decode 0b0111000111111111#16 = .ok (.addImm 1 0xFF) ∧
    decode 0b1100001100001111#16 = .ok (.rnd 3 0x0F) := by decide

theorem test_decode_two_registers :
    decode 0b0101001101000000#16 = .ok (.seReg 3 4) ∧ decode 0b1001001101000000#16 = .ok (.sneReg 3 4) ∧
    decode 0b1101000100100011#16 = .ok (.drw 1 2 3) := by decide

theorem test_decode_family_8 :
    decode 0b1000000100100000#16 = .ok (.ldReg 1 2) ∧ decode 0b1000000100100001#16 = .ok (.orReg 1 2) ∧
    decode 0b1000000100100010#16 = .ok (.andReg 1 2) ∧ decode 0b1000000100100011#16 = .ok (.xorReg 1 2) ∧
    decode 0b1000000100100100#16 = .ok (.addReg 1 2) ∧ decode 0b1000000100100101#16 = .ok (.subReg 1 2) ∧
    decode 0b1000000100100110#16 = .ok (.shr 1 2) ∧ decode 0b1000000100100111#16 = .ok (.subnReg 1 2) ∧
    decode 0b1000000100101110#16 = .ok (.shl 1 2) := by decide

theorem test_decode_families_E_F :
    decode 0b1110000110011110#16 = .ok (.skp 1) ∧ decode 0b1110000110100001#16 = .ok (.sknp 1) ∧
    decode 0b1111000100000111#16 = .ok (.ldVxDt 1) ∧ decode 0b1111000100001010#16 = .ok (.ldVxK 1) ∧
    decode 0b1111101000010101#16 = .ok (.ldDt 10) ∧ decode 0b1111010000011000#16 = .ok (.ldSt 4) := by decide

theorem test_decode_family_F_index :
    decode 0b1111001000011110#16 = .ok (.addI 2) ∧ decode 0b1111000000101001#16 = .ok (.ldF 0) ∧
    decode 0b1111000100110011#16 = .ok (.ldB 1) ∧ decode 0b1111111101010101#16 = .ok (.stRegs 15) ∧
    decode 0b1111001001100101#16 = .ok (.ldRegs 2) := by decide

/-- Section 2.6 of the vectors: words of no row. -/
theorem test_decode_rejects :
    decode 0x0000 = .error (.unknownOpcode 0x0000) ∧ decode 0x0123 = .error (.unknownOpcode 0x0123) ∧
    decode 0x5121 = .error (.unknownOpcode 0x5121) ∧ decode 0x8128 = .error (.unknownOpcode 0x8128) ∧
    decode 0x9121 = .error (.unknownOpcode 0x9121) ∧ decode 0xE19F = .error (.unknownOpcode 0xE19F) ∧
    decode 0xF166 = .error (.unknownOpcode 0xF166) ∧ decode 0xFFFF = .error (.unknownOpcode 0xFFFF) := by decide

theorem test_decode_bytes_is_big_endian :
    decodeBytes [0x81, 0x24, 0x60] = .ok (.addReg 1 2, [0x60]) ∧ decodeBytes [0x81] = .error .truncated := by decide

theorem test_decode_table_word : decodeTableWord 16 0xD123 = some (.drw 1 2 3) ∧ decodeTableWord 16 0x5001 = none := by
  decide

/-! ### Single steps -/

/-- A register file of zeros with some registers written. -/
def regs (s : State) (rs : List (Reg × Byte)) : State := rs.foldl (fun t r => t.setV r.1 r.2) s

/-- The state after reset, changed by `f`, with a word stored where the next step fetches. -/
def start (w : Nat) (f : State → State) : State := (f State.reset).withFetchWord 16 w

/-- What is seen of the state after one step. -/
def after {α : Type} (s : State) (see : State → α) : Option α :=
  match step s with
  | .next t => some (see t)
  | .fault _ => none
  | .refused _ => none

/-- One step of a word from registers, seen through registers. -/
def alu (w : Nat) (rs : List (Reg × Byte)) (see : List Reg) : Option (List Byte) :=
  after (start w (fun s => regs s rs)) (fun t => see.map t.getV)

/-- A1 and A2. -/
theorem test_jp : after (start 0x1208 (fun s => { s with pc := 0x208 })) State.pc = some 0x208 ∧
    after (start 0x1FFF id) State.pc = some 0xFFF := by decide
/-- A3. -/
theorem test_call : after (start 0x2214 (fun s => { s with pc := 0x204 })) (fun t => (t.pc, t.sp, t.stack[0])) =
    some (0x214, 1, 0x0204) := by decide
/-- A7. -/
theorem test_call_overflow : after (start 0x2300 (fun s => { s with pc := 0x2F0, sp := 16 })) (fun t => (t.fault, t.sp, t.pc)) =
    some (⟨.stackOverflow, 0x2300, 0x02F0⟩, 16, 0x2F0) := by decide
/-- A4. -/
theorem test_ret : after (start 0x00EE (fun s => { s with pc := 0x216, sp := 1, stack := s.stack.set 0 0x0204 }))
    (fun t => (t.pc, t.sp, t.stack[0])) = some (0x206, 0, 0x0204) := by decide
/-- A5. -/
theorem test_ret_underflow : after (start 0x00EE (fun s => { s with pc := 0x216 })) (fun t => (t.fault, t.sp)) =
    some (⟨.stackUnderflow, 0x00EE, 0x0216⟩, 0) := by decide
/-- A9 and A10. -/
theorem test_seImm : after (start 0x3100 (fun s => { s with pc := 0x208 })) State.pc = some 0x20C ∧
    after (start 0x3100 (fun s => (s.setV 1 4).setPc 0x208)) State.pc = some 0x20A := by decide
/-- A11 and A12. -/
theorem test_sneImm : after (start 0x4208 (fun s => (s.setV 2 7).setPc 0x300)) State.pc = some 0x304 ∧
    after (start 0x4208 (fun s => (s.setV 2 8).setPc 0x300)) State.pc = some 0x302 := by decide
/-- A13. -/
theorem test_seReg : after (start 0x5340 (fun s => (regs s [(3, 0x2A), (4, 0x2A)]).setPc 0x210)) State.pc = some 0x214 := by
  decide
/-- A15 and A16. -/
theorem test_sneReg : after (start 0x9340 (fun s => (regs s [(3, 1), (4, 2)]).setPc 0x210)) State.pc = some 0x214 ∧
    after (start 0x9340 (fun s => (regs s [(3, 1), (4, 1)]).setPc 0x210)) State.pc = some 0x212 := by decide
/-- A18 and A19. -/
theorem test_jpV0 : after (start 0xB300 (fun s => s.setV 0 4)) State.pc = some 0x304 ∧
    after (start 0xBFFF (fun s => s.setV 0 0xFF)) State.pc = some 0x10FE := by decide
/-- B1 and B2. -/
theorem test_ldImm : alu 0x6A03 [] [10] = some [0x03] ∧ alu 0x6FAB [] [VF] = some [0xAB] := by decide
/-- S1 and B5. -/
theorem test_addImm : alu 0x7102 [(1, 0xFF), (VF, 7)] [1, VF] = some [0x01, 0x07] ∧
    alu 0x7F01 [(VF, 0xFF)] [VF] = some [0x00] := by decide
/-- B6. -/
theorem test_ldReg : alu 0x8120 [(2, 0x5C)] [1, 2] = some [0x5C, 0x5C] := by decide
/-- B7. -/
theorem test_orReg : alu 0x8121 [(1, 0x0F), (2, 0xF0), (VF, 9)] [1, VF] = some [0xFF, 0x09] := by decide
/-- B8. -/
theorem test_andReg : alu 0x8122 [(1, 0x3C), (2, 0x0F), (VF, 9)] [1, VF] = some [0x0C, 0x09] := by decide
/-- B9. -/
theorem test_xorReg : alu 0x8123 [(1, 0xFF), (2, 0x0F), (VF, 9)] [1, VF] = some [0xF0, 0x09] := by decide
/-- S2 and B13. -/
theorem test_addReg_carry : alu 0x8124 [(1, 0x80), (2, 0x90)] [1, VF] = some [0x10, 1] ∧
    alu 0x8124 [(1, 0xFF), (2, 0x01)] [1, VF] = some [0x00, 1] := by decide
/-- B16 and B17. -/
theorem test_addReg_VF : alu 0x8F14 [(VF, 0xF0), (1, 0x20)] [VF] = some [0x21] ∧
    alu 0x81F4 [(1, 0xF0), (VF, 0x20)] [VF, 1] = some [0x01, 0xF1] := by decide
/-- S4 and B21. -/
theorem test_subReg_borrow : alu 0x8125 [(1, 0x05), (2, 0x0A)] [1, VF] = some [0xFB, 0] ∧
    alu 0x8125 [(1, 0x07), (2, 0x07)] [1, VF] = some [0x00, 1] := by decide
/-- B24 and B25. -/
theorem test_subReg_VF : alu 0x8F15 [(VF, 0x05), (1, 0x03)] [VF] = some [0xFE] ∧
    alu 0x81F5 [(1, 0x10), (VF, 0x20)] [VF, 1] = some [0x00, 0x10] := by decide
/-- B31 and B36. -/
theorem test_shr : alu 0x8126 [(1, 0x05), (2, 0xFF)] [1, 2, VF] = some [0x02, 0xFF, 1] ∧
    alu 0x8F06 [(VF, 0x03)] [VF] = some [0x00] := by decide
/-- B37 and B38. -/
theorem test_subnReg : alu 0x8127 [(1, 0x0A), (2, 0x05)] [1, VF] = some [0xFB, 0] ∧
    alu 0x8127 [(1, 0x05), (2, 0x0A)] [1, VF] = some [0x05, 1] := by decide
/-- B39a and B39b. -/
theorem test_subnReg_VF : alu 0x8F17 [(VF, 0x02), (1, 0x0A)] [VF] = some [0x09] ∧
    alu 0x81F7 [(1, 0x03), (VF, 0x0A)] [VF, 1] = some [0x01, 0xFE] := by decide
/-- B44 and B45. -/
theorem test_shl : alu 0x812E [(1, 0xFF), (2, 0x00)] [1, 2, VF] = some [0xFE, 0x00, 0x80] ∧
    alu 0x8F0E [(VF, 0xC1)] [VF] = some [0x00] := by decide
/-- B47: a mask of zero gives zero whatever the free byte is; and the next free byte is taken. -/
theorem test_rnd : after (start 0xC300 (fun s => s.setV 3 0x55)) (fun t => t.draws) = some 1 ∧
    (State.getV (State.writeReg State.reset 3 (Config.freeRnd 0 &&& 0)) 3 = 0) :=
  ⟨rfl, by simp [State.getV_writeReg]⟩
/-- C2. -/
theorem test_ldI : after (start 0xAFFF id) (fun t => (t.i, t.pc)) = some (0xFFF, 0x202) := by decide
/-- C6 and C8. -/
theorem test_addI :
    after (start 0xF21E (fun s => { s.setV 2 0x10 with i := 0xFF0 })) (fun t => (t.i, t.getV VF)) = some (0x000, 1) ∧
    after (start 0xFF1E (fun s => { s.setV VF 0xFF with i := 0xF80 })) (fun t => (t.i, t.getV VF)) = some (0xF81, 1) := by
  decide
/-- C11 and C14. -/
theorem test_ldF : after (start 0xF029 (fun s => s.setV 0 7)) State.i = some 0x073 ∧
    after (start 0xF029 (fun s => s.setV 0 0xFF)) State.i = some 0x54B := by decide
/-- C20. -/
theorem test_ldB : after (start 0xF133 (fun s => { s.setV 1 0x9C with i := 0xFFD })) (fun t => t.mem.readBytes 0xFFD 3) =
    some [1, 5, 6] := by decide
/-- C22. -/
theorem test_ldB_reserved : after (start 0xF133 (fun s => { s.setV 1 0x9C with i := 0x1FF }))
    (fun t => (t.fault, t.mem.readBytes 0x1FF 3)) = some (⟨.storeToReserved, 0xF133, 0x0200⟩, [0x00, 0xF1, 0x33]) := by
  decide
/-- C25. -/
theorem test_stRegs : after (start 0xF255 (fun s => { regs s [(0, 0x11), (1, 0x22), (2, 0x33), (3, 0x44)] with i := 0x300 }))
    (fun t => (t.mem.readBytes 0x300 4, t.i)) = some ([0x11, 0x22, 0x33, 0x00], 0x300) := by decide
/-- C28. -/
theorem test_stRegs_out : after (start 0xFF55 (fun s => { s.setV 0 0xA0 with i := 0xFF1 }))
    (fun t => (t.fault, t.mem.read 0xFF1)) = some (⟨.memOutOfRange, 0xFF55, 0x0200⟩, 0) := by decide
/-- C31: the font is read. -/
theorem test_ldRegs : after (start 0xF465 (fun s => { s with i := 0x050 })) (fun t => [0, 1, 2, 3, 4, 5].map t.getV) =
    some [0xF0, 0x90, 0x90, 0x90, 0xF0, 0x00] := by decide
/-- C32. -/
theorem test_ldRegs_out : after (start 0xFF65 (fun s => { s.setV 0 9 with i := 0xFF1 })) (fun t => (t.fault, t.getV 0)) =
    some (⟨.memOutOfRange, 0xFF65, 0x0200⟩, 9) := by decide

/-- A state with one sprite byte at 0x300 and I there. -/
def sprite (b : Byte) (s : State) : State := { s with i := 0x300, mem := s.mem.write 0x300 b }

/-- G13: a pixel that was on is turned off, VF is 1, the log has both toggles in order. -/
theorem test_drw : after (start 0xD011 (fun s => sprite 0xC0 { s with fb := s.fb.put ⟨0, 0⟩ true }))
    (fun t => (t.fb.get ⟨0, 0⟩, t.fb.get ⟨1, 0⟩, t.log, t.getV VF, t.drawReq)) =
    some (false, true, [⟨⟨0, 0⟩, false⟩, ⟨⟨1, 0⟩, true⟩], 1, true) := by decide
/-- G3: a set bit off the grid. -/
theorem test_drw_edge : after (start 0xD011 (fun s => sprite 0xFF (regs s [(0, 57), (1, 31), (VF, 3)])))
    (fun t => (t.fault, t.log, t.drawReq, t.getV VF)) = some (⟨.pixelOutOfRange, 0xD011, 0x0200⟩, [], false, 3) := by decide
/-- G1. -/
theorem test_cls : after (start 0x00E0 (fun s =>
      { s with fb := s.fb.put ⟨7, 1⟩ true, log := [⟨⟨7, 1⟩, true⟩], drawReq := true }))
    (fun t => (t.fb.get ⟨7, 1⟩, t.log, t.clearReq, t.drawReq, t.pc)) = some (false, [], true, true, 0x202) := by decide
/-- K1 and K5. -/
theorem test_skp : after (start 0xE19E (fun s => ((s.setV 1 7).putKey 7 true).setPc 0x208))
      (fun t => (t.pc, t.keyDown 7)) = some (0x20C, true) ∧
    after (start 0xE19E (fun s => (s.setV 1 0x10).setPc 0x208)) State.fault =
      some ⟨.keyIndexOutOfRange, 0xE19E, 0x0208⟩ := by decide
/-- K3 and K4. -/
theorem test_sknp : after (start 0xE1A1 (fun s => (s.setV 1 7).setPc 0x208)) State.pc = some 0x20C ∧
    after (start 0xE1A1 (fun s => ((s.setV 1 7).putKey 7 true).setPc 0x208)) State.pc = some 0x20A := by decide
/-- K8: a wait changes nothing. -/
theorem test_ldVxK_waits : after (start 0xF10A (fun s => s.setPc 0x204)) (fun t => (t.pc, stepResult
    (start 0xF10A (fun s => s.setPc 0x204)) t)) = some (0x204, .waiting) := by decide
/-- K10. -/
theorem test_ldVxK : after (start 0xF10A (fun s => ((s.putKey 9 true).putKey 3 true).setPc 0x204))
    (fun t => (t.getV 1, t.pc)) = some (0x03, 0x206) := by decide
/-- K13. -/
theorem test_ldVxDt : after (start 0xF207 (fun s => s.setDt 1)) (fun t => t.getV 2) = some 1 := by decide
/-- K14. -/
theorem test_ldDt : after (start 0xFA15 (fun s => s.setV 10 3)) State.dt = some 3 := by decide
/-- K15. -/
theorem test_ldSt : after (start 0xF418 (fun s => s.setV 4 2)) (fun t => (t.st, soundTrigger t, soundTrigger (tick t))) =
    some (2, true, false) := by decide

/-! ### Fetch, events, reset -/

/-- R203: with nothing loaded the first step is `UnknownOpcode(0x0000, 0x0200)`. -/
theorem test_first_step_of_nothing : after State.reset State.fault = some ⟨.unknownOpcode, 0x0000, 0x0200⟩ := by decide
/-- A23, second step. -/
theorem test_fetch_past_the_end : after (State.reset.setPc 0x1000) State.fault =
    some ⟨.fetchOutOfRange, 0x0000, 0x1000⟩ := by decide
/-- A24: an odd `pc` is fetched from. -/
theorem test_odd_pc : after (start 0x6001 (fun s => s.setPc 0x201)) (fun t => (t.getV 0, t.pc)) = some (0x01, 0x203) := by
  decide
/-- E1 and E5. -/
theorem test_tick : (tick { State.reset with dt := 2, st := 3 }).dt = 1 ∧ (tick { State.reset with dt := 2, st := 3 }).st = 2 ∧
    soundTrigger { State.reset with st := 3 } = false ∧ (tick { State.reset with dt := 255, st := 1 }).dt = 254 ∧
    soundTrigger { State.reset with st := 1 } = false := by decide
/-- E9 and E10. -/
theorem test_flush :
    flushResult { State.reset with log := [⟨⟨1, 2⟩, true⟩], drawReq := true } = ⟨[⟨⟨1, 2⟩, true⟩], true, false⟩ ∧
    flushResult (flush { State.reset with log := [⟨⟨1, 2⟩, true⟩], drawReq := true }) = ⟨[], false, false⟩ := by decide
/-- E13 and E16. -/
theorem test_load_window : loadResult [] State.reset = .ok ∧ loadResult [] (loadProgram [] State.reset) = .loadError ∧
    after { State.reset with schedule := [.loadProgram [0x12, 0x00]] } (fun t => (t.mem.readBytes 0x200 2, t.loadOpen)) =
      some ([0x12, 0x00], false) := by decide
/-- E12: `Reset` of a halted core. -/
theorem test_reset_event : after { State.reset.raise .unknownOpcode 0x1234 with dt := 5, schedule := [.reset] }
    (fun t => (t.fault, t.dt, t.pc, t.mem.read 0x050)) = some (.clear, 0, 0x200, 0xF0) := by decide
/-- The memory of reset is in canonical form. -/
theorem test_reset_memory_wf : Memory.wf State.reset.mem = true := by decide

/-! ### Witnesses: for every statement with hypotheses a concrete input that meets all of them together, clause by clause
and at the ends of its ranges -/

theorem witness_DecodeOfEncodeIsTheInstruction : Instr.wf (.drw 15 0 15) = true := by decide

theorem witness_EncodeOfDecodeIsTheWord : decode 0xDF0F = .ok (.drw 15 0 15) := by decide

theorem witness_DecodeFollowsTheOpcodeTable :
    (decode 0x800E = .ok (.shl 0 0) ∧ (⟨0x800E, 0xF00F⟩ : OpcodeRow) ∈ opcodeTable ∧
      OpcodeRow.selects ⟨0x800E, 0xF00F⟩ 0x800E = true) ∧
    decode 0x800F = .error (.unknownOpcode 0x800F) := by decide

theorem witness_StepPerformsTheNextEvent :
    ({ State.reset with schedule := [.tick, .flush] } : State).schedule = .tick :: [.flush] ∧
    State.reset.schedule = [] := by decide

/-- At the last address a fetch can be made from. -/
theorem witness_StepRunsTheDecodedInstruction :
    (start 0x6001 (fun s => s.setPc 0xFFE)).nextEvent = .step ∧ (start 0x6001 (fun s => s.setPc 0xFFE)).Running ∧
    (start 0x6001 (fun s => s.setPc 0xFFE)).pc.toNat ≤ 0xFFE ∧
    decode ((start 0x6001 (fun s => s.setPc 0xFFE)).mem.read 0xFFE ++
      (start 0x6001 (fun s => s.setPc 0xFFE)).mem.read 0xFFF) = .ok (.ldImm 0 1) := by decide

theorem witness_FetchOutOfRangeIsAFault :
    (State.reset.setPc 0xFFF).nextEvent = .step ∧ (State.reset.setPc 0xFFF).Running ∧
    0xFFE < (State.reset.setPc 0xFFF).pc.toNat := by decide

theorem witness_UnknownOpcodeIsAFault :
    State.reset.nextEvent = .step ∧ State.reset.Running ∧ State.reset.pc.toNat ≤ 0xFFE ∧
    decode (State.reset.mem.read 0x200 ++ State.reset.mem.read 0x201) = .error (.unknownOpcode 0x0000) := by decide

theorem witness_HaltedCoreIgnoresEveryEventButReset :
    ¬ (State.reset.raise .unknownOpcode 0x0000).Running ∧ Event.tick ≠ .reset := by decide

/-- A fetch fault, past 0xFFE, and a fault of a fetched word. -/
theorem witness_FaultsArePrecise :
    (∃ t, (State.reset.setPc 0xFFF).nextEvent = .step ∧ (State.reset.setPc 0xFFF).Running ∧
      step (State.reset.setPc 0xFFF) = .next t ∧ ¬ t.Running ∧ 0xFFE < (State.reset.setPc 0xFFF).pc.toNat) ∧
    (∃ t, (start 0x00EE id).nextEvent = .step ∧ (start 0x00EE id).Running ∧ step (start 0x00EE id) = .next t ∧
      ¬ t.Running ∧ (start 0x00EE id).pc.toNat ≤ 0xFFE) :=
  ⟨⟨_, rfl, rfl, rfl, by decide, by decide⟩, ⟨_, rfl, rfl, rfl, by decide, by decide⟩⟩

/-- For every statement about a running core. -/
theorem witness_Running : State.reset.Running := by decide

theorem witness_TickCountsBothTimersDown : ({ State.reset with dt := 0, st := 2 } : State).Running ∧
    soundTrigger { State.reset with dt := 0, st := 2 } = true := by decide

theorem witness_SoundTriggerComesAtOneTick : ({ State.reset with st := 5 } : State).Running ∧
    soundTrigger (tick^[3] { State.reset with st := 5 }) = true := by decide

theorem witness_SetKeyWritesOneKey : State.reset.Running ∧ (15 : Key) = 15 := by decide

theorem witness_FlushDrainsTheLog : ({ State.reset with log := [⟨⟨63, 31⟩, true⟩], drawReq := true } : State).Running := by
  decide

/-- A load of the longest image; one with the window closed; one a byte too long. -/
theorem witness_LoadProgramCopiesTheImage :
    (State.reset.Running ∧ State.reset.loadOpen = true ∧ (List.replicate 3584 (0xAA : Byte)).length ≤ 3584) ∧
    (State.reset.closeLoad.Running ∧ State.reset.closeLoad.loadOpen = false) ∧
    (State.reset.Running ∧ 3584 < (List.replicate 3585 (0xAA : Byte)).length) := by
  simp only [List.length_replicate]; decide

theorem witness_LoadBoundaryIsExact :
    State.reset.Running ∧ State.reset.loadOpen = true ∧ (List.replicate 3584 (0xAA : Byte)).length = 3584 ∧
    (List.replicate 3585 (0xAA : Byte)).length = 3585 := by
  simp only [List.length_replicate]; decide

theorem reset_Inv : State.reset.Inv := ⟨by decide, by decide, fun _ _ => rfl⟩

theorem reset_PcInv : State.reset.PcInv := ⟨by decide, by decide⟩

theorem witness_StepKeepsTheInvariants : ∃ t, State.reset.Inv ∧ step State.reset = .next t := ⟨_, reset_Inv, rfl⟩

theorem witness_StepKeepsPcInRange : ∃ t, State.reset.PcInv ∧ step State.reset = .next t := ⟨_, reset_PcInv, rfl⟩

theorem witness_LowMemoryIsNeverWritten :
    ∃ t, step (start 0xF055 (fun s => { s with i := 0x200, pc := 0x300 })) = .next t ∧
      (start 0xF055 (fun s => { s with i := 0x200, pc := 0x300 })).nextEvent ≠ .reset ∧ 0x1FF < 0x200 :=
  ⟨_, rfl, by decide, by decide⟩

/-- A step that draws, and a `Flush` of a log with an entry. -/
theorem witness_RendererPictureFollowsFramebuffer :
    (∃ t, rendered Framebuffer.blank (start 0xD011 (sprite 0x80)) = (start 0xD011 (sprite 0x80)).fb ∧
      step (start 0xD011 (sprite 0x80)) = .next t ∧ (start 0xD011 (sprite 0x80)).nextEvent ≠ .flush ∧
      (start 0xD011 (sprite 0x80)).nextEvent ≠ .reset) ∧
    (∃ t, rendered Framebuffer.blank { State.reset.toggle ⟨63, 31⟩ with schedule := [.flush] } =
        ({ State.reset.toggle ⟨63, 31⟩ with schedule := [.flush] } : State).fb ∧
      step { State.reset.toggle ⟨63, 31⟩ with schedule := [.flush] } = .next t ∧
      ({ State.reset.toggle ⟨63, 31⟩ with schedule := [.flush] } : State).nextEvent = .flush) :=
  ⟨⟨_, rfl, rfl, by decide, by decide⟩, ⟨_, rfl, rfl, rfl⟩⟩

/-- Every clause: a fault, a plain instruction, a skip, the jumps, the return, the wait with and without a key; an event. -/
theorem witness_PcChangesOnlyInTheGivenForms :
    State.reset.Running ∧
    (∃ t, exec .ret State.reset = .next t ∧ ¬ t.Running) ∧
    (∃ t, exec (.ldImm 0 1) State.reset = .next t ∧ t.Running ∧ isPlain (.ldImm 0 1) = true) ∧
    (∃ t, exec (.seImm 0 0) State.reset = .next t ∧ t.Running ∧ isSkip (.seImm 0 0) = true) ∧
    (∃ t, exec (.jp 0xFFF) State.reset = .next t ∧ t.Running) ∧
    (∃ t, exec (.call 0xFFF) State.reset = .next t ∧ t.Running) ∧
    (∃ t, exec (.jpV0 0xFFF) State.reset = .next t ∧ t.Running) ∧
    (∃ t, exec .ret { State.reset with sp := 16 } = .next t ∧ t.Running) ∧
    (∃ t, exec (.ldVxK 1) (State.reset.putKey 15 true) = .next t ∧ t.Running ∧
      ∃ k, (State.reset.putKey 15 true).keyDown k = true) ∧
    (∃ t, exec (.ldVxK 1) State.reset = .next t ∧ t.Running ∧ ∀ k, State.reset.keyDown k = false) ∧
    (∃ t, Event.tick ≠ .step ∧ Event.tick ≠ .reset ∧ performEvent .tick State.reset = .next t) :=
  ⟨rfl, ⟨_, rfl, by decide⟩, ⟨_, rfl, rfl, rfl⟩, ⟨_, rfl, rfl, rfl⟩, ⟨_, rfl, rfl⟩, ⟨_, rfl, rfl⟩, ⟨_, rfl, rfl⟩,
    ⟨_, rfl, rfl⟩, ⟨_, rfl, rfl, 15, by decide⟩, ⟨_, rfl, rfl, by decide⟩, ⟨_, by decide, by decide, rfl⟩⟩

theorem witness_OtherRegistersKeepTheirValue :
    ∃ t, exec (.addReg 1 2) State.reset = .next t ∧ mayWrite (.addReg 1 2) 2 = false := ⟨_, rfl, by decide⟩

/-- A form that stores nothing, and one that stores at the top of the memory. -/
theorem witness_OtherMemoryKeepsItsValue :
    (∃ t, exec (.ldRegs 15) State.reset = .next t ∧ storedBytes State.reset (.ldRegs 15) = none) ∧
    (∃ t, exec (.ldB 0) { State.reset with i := 0xFFD } = .next t ∧
      storedBytes { State.reset with i := 0xFFD } (.ldB 0) = some (0xFFD, 3) ∧ 0xFFD + 3 ≤ 0x1000) :=
  ⟨⟨_, rfl, rfl⟩, ⟨_, rfl, rfl, by decide⟩⟩

theorem witness_OtherStateKeepsItsValue : ∃ t, exec (.ldImm 15 0xFF) State.reset = .next t ∧
    (∀ n, Instr.ldImm 15 0xFF ≠ .ldI n) ∧ (∀ x, Instr.ldImm 15 0xFF ≠ .addI x) ∧ (∀ x, Instr.ldImm 15 0xFF ≠ .ldF x) ∧
    (∀ n, Instr.ldImm 15 0xFF ≠ .call n) ∧ Instr.ldImm 15 0xFF ≠ .ret ∧ (∀ x, Instr.ldImm 15 0xFF ≠ .ldDt x) ∧
    (∀ x, Instr.ldImm 15 0xFF ≠ .ldSt x) ∧ Instr.ldImm 15 0xFF ≠ .cls ∧ (∀ x y n, Instr.ldImm 15 0xFF ≠ .drw x y n) ∧
    (∀ x, Instr.ldImm 15 0xFF ≠ .skp x) ∧ (∀ x, Instr.ldImm 15 0xFF ≠ .sknp x) ∧ (∀ x, Instr.ldImm 15 0xFF ≠ .ldB x) ∧
    (∀ x, Instr.ldImm 15 0xFF ≠ .stRegs x) ∧ (∀ x, Instr.ldImm 15 0xFF ≠ .ldRegs x) ∧
    (∀ x n, Instr.ldImm 15 0xFF ≠ .rnd x n) :=
  ⟨_, rfl, by simp⟩

theorem witness_TimersInfluenceNothingElse : ∃ t, exec (.drw 0 1 15) State.reset = .next t ∧
    (∀ x, Instr.drw 0 1 15 ≠ .ldSt x) ∧ (∀ x, Instr.drw 0 1 15 ≠ .ldDt x) ∧ (∀ x, Instr.drw 0 1 15 ≠ .ldVxDt x) :=
  ⟨_, rfl, by simp⟩

theorem witness_DisplayQueueInfluencesNothingElse : ∃ t, exec .cls State.reset = .next t := ⟨_, rfl⟩

theorem witness_JumpSetsPc : (State.reset.setPc 0xFFE).pc = (0xFFE : Addr).setWidth 16 ∧ (0xFFF : Addr) = 0xFFF ∧
    State.reset.Running := by decide

theorem witness_CallPushesItsOwnAddress : ({ State.reset with sp := 15 } : State).sp.val < 16 := by decide

theorem witness_ReturnPopsAndStepsOverTheCall :
    0 < ({ State.reset with sp := 1 } : State).sp.val ∧ 0 < ({ State.reset with sp := 16 } : State).sp.val := by decide

theorem witness_StackFaults : ({ State.reset with sp := 16 } : State).sp.val = 16 ∧ State.reset.sp.val = 0 := by decide

theorem witness_ReturnUndoesCall : State.reset.sp.val < 16 ∧
    ∃ t, exec (.call 0x214) State.reset = .next t ∧ ({ t with pc := 0x300 } : State).stack = t.stack ∧
      ({ t with pc := 0x300 } : State).sp = t.sp := ⟨by decide, _, rfl, rfl, rfl⟩

theorem witness_SkipOnRegisters : (1 : Nibble) ≠ 0 ∧ (3 : Reg) = 3 := by decide

theorem witness_BitwiseOperations : 7 < 8 ∧ (15 : Reg) ≠ 1 := by decide

theorem witness_RandomByteIsMasked : 7 < 8 ∧ (15 : Reg) ≠ 1 := by decide

theorem witness_AddToIndex : ({ State.reset with i := 0xFFF } : State).i.toNat ≤ 0xFFF := by decide

theorem witness_PointIndexAtGlyph : (State.getV { State.reset with v := State.reset.v.set 0 0x0F } 0).toNat ≤ 0x0F ∧
    State.Inv { State.reset with v := State.reset.v.set 0 0x0F } ∧ 4 < 5 :=
  ⟨by decide, ⟨by decide, by decide, fun _ _ => rfl⟩, by decide⟩

/-- The first and the last legal base. -/
theorem witness_StoreDecimalDigits :
    (0x200 ≤ ({ State.reset with i := 0x200 } : State).i.toNat ∧ ({ State.reset with i := 0x200 } : State).i.toNat + 2 ≤ 0xFFF) ∧
    (0x200 ≤ ({ State.reset with i := 0xFFD } : State).i.toNat ∧
      ({ State.reset with i := 0xFFD } : State).i.toNat + 2 ≤ 0xFFF) := by decide

theorem witness_StoreRegisters :
    (0x200 ≤ ({ State.reset with i := 0x200 } : State).i.toNat ∧
      ({ State.reset with i := 0x200 } : State).i.toNat + (0 : Reg).val ≤ 0xFFF) ∧
    (0x200 ≤ ({ State.reset with i := 0xFF0 } : State).i.toNat ∧
      ({ State.reset with i := 0xFF0 } : State).i.toNat + (15 : Reg).val ≤ 0xFFF) := by decide

theorem witness_LoadRegisters : State.reset.i.toNat + (0 : Reg).val ≤ 0xFFF ∧
    ({ State.reset with i := 0xFF0 } : State).i.toNat + (15 : Reg).val ≤ 0xFFF := by decide

/-- Each clause at the boundary of its range. -/
theorem witness_LoadAndStoreFaults :
    0xFFF < ({ State.reset with i := 0xFFE } : State).i.toNat + 2 ∧
    ({ State.reset with i := 0x1FF } : State).i.toNat < 0x200 ∧
    0xFFF < ({ State.reset with i := 0xFF1 } : State).i.toNat + (15 : Reg).val := by decide

theorem witness_LoadGivesBackWhatWasStored :
    0x200 ≤ ({ State.reset with i := 0xFF0 } : State).i.toNat ∧
    ({ State.reset with i := 0xFF0 } : State).i.toNat + (15 : Reg).val ≤ 0xFFF ∧
    ∃ t, exec (.stRegs 15) { State.reset with i := 0xFF0 } = .next t ∧ (t.setV 0 1).mem = t.mem ∧ (t.setV 0 1).i = t.i :=
  ⟨by decide, by decide, _, rfl, rfl, rfl⟩

theorem witness_StoredWordIsFetchedNext : 1 ≤ (1 : Reg).val ∧
    ({ State.reset with i := 0xFFE, pc := 0xFFC } : State).i.toNat =
      ({ State.reset with i := 0xFFE, pc := 0xFFC } : State).pc.toNat + 2 ∧
    0x200 ≤ ({ State.reset with i := 0xFFE, pc := 0xFFC } : State).i.toNat ∧
    ({ State.reset with i := 0xFFE, pc := 0xFFC } : State).i.toNat + (1 : Reg).val ≤ 0xFFF := by decide

/-- The sprite `80` at 0x300: its one set bit. -/
theorem sprite_bit (r c : Nat) (hr : r < 1) (hc : c < 8) (h : spriteBit (sprite 0x80 State.reset) r c = true) :
    r = 0 ∧ c = 0 := by
  have hr : r = 0 := by omega
  subst hr
  refine ⟨rfl, ?_⟩
  revert h
  have : ∀ c : Fin 8, spriteBit (sprite 0x80 State.reset) 0 c.val = true → c.val = 0 := by decide
  exact this ⟨c, hc⟩

/-- A draw of one set pixel, covered and off; then with that pixel on; an empty sprite at the end of memory. -/
theorem witness_DrawTogglesTheSprite :
    (spriteReadable (sprite 0x80 State.reset) 1 ∧ spriteOnGrid (sprite 0x80 State.reset) 0 1 1) ∧
    covers (sprite 0x80 State.reset) 0 1 1 ⟨0, 0⟩ ∧
    (¬ covers (sprite 0x80 State.reset) 0 1 1 ⟨1, 0⟩) ∧
    (∀ p, covers (sprite 0x80 State.reset) 0 1 1 p → (sprite 0x80 State.reset).fb.get p = false) ∧
    (covers (sprite 0x80 { State.reset with fb := State.reset.fb.put ⟨0, 0⟩ true }) 0 1 1 ⟨0, 0⟩ ∧
      (sprite 0x80 { State.reset with fb := State.reset.fb.put ⟨0, 0⟩ true }).fb.get ⟨0, 0⟩ = true) ∧
    spriteReadable { State.reset with i := 0xFFF } 1 := by
  refine ⟨⟨.inr (by decide), fun r c hr hc h => ?_⟩, ⟨0, 0, by decide, by decide, by decide, by decide, by decide⟩, ?_, ?_,
    ⟨⟨0, 0, by decide, by decide, by decide, by decide, by decide⟩, by decide⟩, .inr (by decide)⟩
  · obtain ⟨rfl, rfl⟩ := sprite_bit r c hr hc h; decide
  · rintro ⟨r, c, hr, hc, h, hx, -⟩
    obtain ⟨rfl, rfl⟩ := sprite_bit r c hr hc h
    revert hx; decide
  · intro p _; exact Framebuffer.get_blank p

/-- A sprite byte past 0xFFF; a set bit past the right edge. -/
theorem witness_DrawFaults :
    (¬ spriteReadable { State.reset with i := 0xFFF } 2) ∧
    (spriteReadable (sprite 0x01 (State.reset.setV 0 57)) 1 ∧ ¬ spriteOnGrid (sprite 0x01 (State.reset.setV 0 57)) 0 1 1) := by
  refine ⟨?_, .inr (by decide), fun h => ?_⟩
  · rintro (h | h) <;> revert h <;> decide
  · have := (h 0 7 (by decide) (by decide) (by decide)).1
    revert this; decide

theorem witness_DrawingTwiceRestores :
    ∃ t, (sprite 0x80 State.reset).Running ∧ exec (.drw 0 1 1) (sprite 0x80 State.reset) = .next t ∧ t.Running ∧
      t.getV 0 = (sprite 0x80 State.reset).getV 0 ∧ t.getV 1 = (sprite 0x80 State.reset).getV 1 ∧
      ∃ p, (sprite 0x80 State.reset).fb.get p = false ∧ t.fb.get p = true :=
  ⟨_, rfl, rfl, rfl, rfl, rfl, ⟨0, 0⟩, rfl, rfl⟩

theorem witness_SkipOnKey : ((State.reset.setV 1 0x0F).getV 1).toNat = (15 : Key).val ∧
    (State.reset.getV 1).toNat = (0 : Key).val := by decide

theorem witness_KeyIndexFaults : 0x0F < ((State.reset.setV 1 0x10).getV 1).toNat := by decide

theorem witness_WaitForKey :
    ((State.reset.putKey 15 true).keyDown 15 = true ∧ ∀ j, j < 15 → (State.reset.putKey 15 true).keyDown j = false) ∧
    ∀ k, State.reset.keyDown k = false := by decide

end Sys2Proof.Tests
end

section
/-! O24: how `pc` changes (10_state.md R24). One lemma per form of R24 says what a completed instruction of that form
leaves in `pc`; a fault and the events other than `Step` and `Reset` leave it alone. -/

namespace Sys2Proof.Machine

variable {s t : State}

/-! ### A completed instruction is not a raised fault -/

theorem State.not_running_raise {c : Cause} (op : Word) (hc : c ≠ .noFault) : ¬ (s.raise c op).Running := hc

/-- An instruction that ends halted on a core that ran has raised a fault, which leaves `pc` (R171). -/
theorem exec_pc_of_fault {i : Instr} (hs : s.Running) (h : exec i s = .next t) (ht : ¬ t.Running) : t.pc = s.pc := by
  rcases exec_fault_or s i t h with hf | ⟨c, -, rfl⟩
  · exact absurd ((congrArg FaultRecord.cause hf).trans hs) ht
  · rfl

/-! ### `pc + 2` -/

theorem storeAtI_pc {op : Word} {bytes : List Byte} (h : storeAtI op bytes s = .next t) (ht : t.Running) :
    t.pc = s.pc + 2 := by
  rcases storeAtI_cases s op bytes with ⟨c, hc, e⟩ | ⟨-, e⟩ <;> cases h.symm.trans e
  · exact absurd ht (State.not_running_raise op (checkRange_write_cause _ _ _ hc))
  · rfl

@[simp] theorem State.loadRegs_pc (r : Nat) (bs : List Byte) : (s.loadRegs r bs).pc = s.pc := by
  rw [State.loadRegs_eq]

theorem execLdRegs_pc {x : Reg} (h : execLdRegs x s = .next t) (ht : t.Running) : t.pc = s.pc + 2 := by
  rcases execLdRegs_cases s x with ⟨-, e⟩ | ⟨-, e⟩ <;> cases h.symm.trans e
  · exact absurd ht (State.not_running_raise _ (by decide))
  · simp

@[simp] theorem State.drawPixels_pc (ps : List Pixel) : (s.drawPixels ps).pc = s.pc := by
  rw [State.drawPixels_eq]

theorem execDrw_pc {x y : Reg} {n : Fin 16} (h : execDrw x y n s = .next t) (ht : t.Running) : t.pc = s.pc + 2 := by
  rcases execDrw_cases s x y n with ⟨-, e⟩ | ⟨-, -, e⟩ | ⟨-, ps, -, e⟩ <;> cases h.symm.trans e
  · exact absurd ht (State.not_running_raise _ (by decide))
  · exact absurd ht (State.not_running_raise _ (by decide))
  · simp

/-- Of the plain instructions only the draw, the stores and the block load can fault; each of the others has one outcome,
which advances `pc`. -/
theorem exec_pc_of_isPlain {i : Instr} (hi : Claims.isPlain i = true) (h : exec i s = .next t) (ht : t.Running) :
    t.pc = s.pc + 2 := by
  cases i with
  | drw x y n => exact execDrw_pc h ht
  | ldB x => exact storeAtI_pc h ht
  | stRegs x => exact storeAtI_pc h ht
  | ldRegs x => exact execLdRegs_pc h ht
  | ret | jp | call | jpV0 | ldVxK | seImm | sneImm | seReg | sneReg | skp | sknp => cases hi
  | _ => cases h; rfl

/-! ### The skips -/

theorem State.skipIf_pc_or (c : Bool) : (s.skipIf c).pc = s.pc + 2 ∨ (s.skipIf c).pc = s.pc + 4 := by
  cases c
  · exact .inl rfl
  · exact .inr rfl

theorem exec_pc_of_isSkip {i : Instr} (hi : Claims.isSkip i = true) (h : exec i s = .next t) (ht : t.Running) :
    t.pc = s.pc + 2 ∨ t.pc = s.pc + 4 := by
  cases i with
  | skp x =>
    rcases execSkp_cases s x with ⟨-, e⟩ | ⟨k, -, e⟩ <;> cases h.symm.trans e
    · exact absurd ht (State.not_running_raise _ (by decide))
    · exact State.skipIf_pc_or _
  | sknp x =>
    rcases execSknp_cases s x with ⟨-, e⟩ | ⟨k, -, e⟩ <;> cases h.symm.trans e
    · exact absurd ht (State.not_running_raise _ (by decide))
    · exact State.skipIf_pc_or _
  | seImm | sneImm | seReg | sneReg => cases h; exact State.skipIf_pc_or _
  | _ => cases hi

/-! ### Jumps, call and return, the wait for a key -/

theorem execCall_pc {nnn : Addr} (h : execCall nnn s = .next t) (ht : t.Running) : t.pc = nnn.setWidth 16 := by
  rcases execCall_cases s nnn with ⟨-, e⟩ | ⟨_, e⟩ <;> cases h.symm.trans e
  · exact absurd ht (State.not_running_raise _ (by decide))
  · rfl

/-- The popped entry is the one the decremented `sp` points at (R101). -/
theorem execRet_pc (h : execRet s = .next t) (ht : t.Running) :
    ∃ _ : t.sp.val < 16, t.pc = s.stack[t.sp.val] + 2 := by
  rcases execRet_cases s with ⟨-, e⟩ | ⟨hsp, e⟩ <;> cases h.symm.trans e
  · exact absurd ht (State.not_running_raise _ (by decide))
  · have := s.sp.isLt
    exact ⟨by simp only; omega, rfl⟩

theorem execLdVxK_pc_of_pressed {x : Reg} (h : execLdVxK x s = .next t) (hk : ∃ k, s.keyDown k = true) :
    t.pc = s.pc + 2 := by
  obtain ⟨k, hk⟩ := hk
  rcases execLdVxK_cases s x with ⟨hnone, -⟩ | ⟨_, -, e⟩
  · simp [hnone k] at hk
  · cases h.symm.trans e; rfl

theorem execLdVxK_pc_of_waiting {x : Reg} (h : execLdVxK x s = .next t) (hk : ∀ k, s.keyDown k = false) :
    t.pc = s.pc := by
  rcases execLdVxK_cases s x with ⟨-, e⟩ | ⟨k, ⟨hdown, -⟩, -⟩
  · cases h.symm.trans e; rfl
  · simp [hk k] at hdown

/-! ### The events -/

@[simp] theorem tick_pc : (tick s).pc = s.pc := by unfold tick; split <;> rfl

@[simp] theorem setKey_pc (c : Key) (p : Bool) : (setKey c p s).pc = s.pc := by unfold setKey; split <;> rfl

@[simp] theorem flush_pc : (flush s).pc = s.pc := by unfold flush; split <;> rfl

@[simp] theorem loadProgram_pc (bytes : List Byte) : (loadProgram bytes s).pc = s.pc := by
  unfold loadProgram; split <;> rfl

theorem performEvent_pc {e : Event} (hstep : e ≠ .step) (hreset : e ≠ .reset) (h : performEvent e s = .next t) :
    t.pc = s.pc := by
  cases e with
  | step => exact absurd rfl hstep
  | reset => exact absurd rfl hreset
  | loadProgram bytes => cases h; exact loadProgram_pc bytes
  | tick => cases h; exact tick_pc
  | setKey c p => cases h; exact setKey_pc c p
  | flush => cases h; exact flush_pc

end Sys2Proof.Machine

namespace Sys2Proof.Claims

open Sys2Proof.Machine

/-- Settles O24: each clause is the lemma about the instructions, or the events, of its form. -/
theorem pcChangesOnlyInTheGivenForms : Obligations.PcChangesOnlyInTheGivenForms := by
  refine ⟨fun i s t hs h => ⟨exec_pc_of_fault hs h, fun ht => ⟨?plain, ?skip, ?jump, ?jumpV0, ?ret, ?key, ?wait⟩⟩,
    fun e s t => performEvent_pc⟩
  case plain => exact fun hi => exec_pc_of_isPlain hi h ht
  case skip => exact fun hi => exec_pc_of_isSkip hi h ht
  case jump =>
    rintro nnn (rfl | rfl)
    · cases h; rfl
    · exact execCall_pc h ht
  case jumpV0 => rintro nnn rfl; cases h; rfl
  case ret => rintro rfl; exact execRet_pc h ht
  case key => rintro x rfl hk; exact execLdVxK_pc_of_pressed h hk
  case wait => rintro x rfl hk; exact execLdVxK_pc_of_waiting h hk

end Sys2Proof.Claims

end

section
/-! O35, O36: the register skips (40_control_flow.md R104 to R107). The decoder's rows of the four forms, what a skip does
to a state, and from these what each of the four instructions does. -/

namespace Sys2Proof

variable (x y : Reg) (nn : Byte) (n : Nibble)

theorem decode_formatXI_three : decode (formatXI 0x3#4 x nn) = .ok (.seImm x nn) := by simp [decode]

theorem decode_formatXI_four : decode (formatXI 0x4#4 x nn) = .ok (.sneImm x nn) := by simp [decode]

/-- R106: `N` is a literal digit of the row, so the family holds one instruction. -/
theorem decode_formatXY_five : decode (formatXY 0x5#4 x y n) =
    if n = 0 then .ok (.seReg x y) else .error (.unknownOpcode (formatXY 0x5#4 x y n)) := by
  simp [decode]

/-- R107: the same for `9XY0`. -/
theorem decode_formatXY_nine : decode (formatXY 0x9#4 x y n) =
    if n = 0 then .ok (.sneReg x y) else .error (.unknownOpcode (formatXY 0x9#4 x y n)) := by
  simp [decode]

end Sys2Proof

namespace Sys2Proof.Machine

variable (x y : Reg) (nn : Byte) (s : State)

/-- A skip whose test decides `p` (R24): only `pc` is written. -/
theorem State.skipIf_of_iff {c : Bool} {p : Prop} [Decidable p] (h : c = true ↔ p) :
    s.skipIf c = { s with pc := if p then s.pc + 4 else s.pc + 2 } := by
  cases c with
  | true => rw [if_pos (h.1 rfl)]; rfl
  | false => rw [if_neg fun hp => Bool.false_ne_true (h.2 hp)]; rfl

theorem exec_seImm :
    exec (.seImm x nn) s = .next { s with pc := if s.getV x = nn then s.pc + 4 else s.pc + 2 } :=
  congrArg Host.Outcome.next (s.skipIf_of_iff beq_iff_eq)

theorem exec_sneImm :
    exec (.sneImm x nn) s = .next { s with pc := if s.getV x ≠ nn then s.pc + 4 else s.pc + 2 } :=
  congrArg Host.Outcome.next (s.skipIf_of_iff bne_iff_ne)

theorem exec_seReg :
    exec (.seReg x y) s = .next { s with pc := if s.getV x = s.getV y then s.pc + 4 else s.pc + 2 } :=
  congrArg Host.Outcome.next (s.skipIf_of_iff beq_iff_eq)

theorem exec_sneReg :
    exec (.sneReg x y) s = .next { s with pc := if s.getV x ≠ s.getV y then s.pc + 4 else s.pc + 2 } :=
  congrArg Host.Outcome.next (s.skipIf_of_iff bne_iff_ne)

/-- A register equals itself, so `5XX0` always skips (R106). -/
theorem exec_seReg_self : exec (.seReg x x) s = .next { s with pc := s.pc + 4 } := by
  rw [exec_seReg, if_pos rfl]

/-- A register does not differ from itself, so `9XX0` never skips (R107). -/
theorem exec_sneReg_self : exec (.sneReg x x) s = .next { s with pc := s.pc + 2 } := by
  rw [exec_sneReg, if_neg (not_not_intro rfl)]

end Sys2Proof.Machine

namespace Sys2Proof.Claims

open Sys2Proof.Machine

/-- Settles O35: the decoder's two rows and the two instructions. -/
theorem skipOnImmediate : Obligations.SkipOnImmediate := fun x nn s =>
  ⟨decode_formatXI_three x nn, decode_formatXI_four x nn, exec_seImm x nn s, exec_sneImm x nn s⟩

/-- Settles O36: the `N` clauses are the two branches of the decoder's rows; `X = Y` is the case of one register. -/
theorem skipOnRegisters : Obligations.SkipOnRegisters := by
  refine fun x y s => ⟨?five, ?nine, fun n hn => ⟨?fiveOther, ?nineOther⟩, exec_seReg x y s, exec_sneReg x y s, ?same⟩
  case five => exact (decode_formatXY_five x y 0).trans (if_pos rfl)
  case nine => exact (decode_formatXY_nine x y 0).trans (if_pos rfl)
  case fiveOther => exact (decode_formatXY_five x y n).trans (if_neg hn)
  case nineOther => exact (decode_formatXY_nine x y n).trans (if_neg hn)
  case same => rintro rfl; exact ⟨exec_seReg_self x s, exec_sneReg_self x s⟩

end Sys2Proof.Claims

end

section
/-! O38, O39: loads, addition of an immediate and the bitwise operations (41_alu.md R122 to R127). The decoder's rows of
the six forms, and what each leaves in the registers: they all end in one write of `V[X]` (`State.writeReg`). -/

namespace Sys2Proof

variable (x y : Reg) (nn : Byte) (fn : Nibble)

theorem decode_formatXI_six : decode (formatXI 0x6#4 x nn) = .ok (.ldImm x nn) := by simp [decode]

theorem decode_formatXI_seven : decode (formatXI 0x7#4 x nn) = .ok (.addImm x nn) := by simp [decode]

/-- The family `8XYN`, whose row its last digit selects. -/
theorem decode_formatXY_eight : decode (formatXY 0x8#4 x y fn) = decode8 (formatXY 0x8#4 x y fn) := by simp [decode]

theorem decode_formatXY_ldReg : decode (formatXY 0x8#4 x y 0x0#4) = .ok (.ldReg x y) := by
  rw [decode_formatXY_eight]; simp [decode8]

theorem decode_formatXY_orReg : decode (formatXY 0x8#4 x y 0x1#4) = .ok (.orReg x y) := by
  rw [decode_formatXY_eight]; simp [decode8]

theorem decode_formatXY_andReg : decode (formatXY 0x8#4 x y 0x2#4) = .ok (.andReg x y) := by
  rw [decode_formatXY_eight]; simp [decode8]

theorem decode_formatXY_xorReg : decode (formatXY 0x8#4 x y 0x3#4) = .ok (.xorReg x y) := by
  rw [decode_formatXY_eight]; simp [decode8]

end Sys2Proof

namespace Sys2Proof.Machine

variable (s : State) (x y : Reg)

/-- `V[x] <- b; pc <- pc + 2` as an update of the register file. -/
theorem State.exists_writeReg (b : Byte) :
    ∃ v : Vector Byte 16, Host.Outcome.next (s.writeReg x b) = (.next { s with v := v, pc := s.pc + 2 } : Result) ∧
      ∀ r : Reg, v[r] = if r = x then b else s.getV r :=
  ⟨s.v.set x b, congrArg Host.Outcome.next (s.writeReg_eq x b), fun r => s.getV_writeReg x r b⟩

/-- The sum of two bytes is the integer sum modulo 256 (R123). -/
theorem exec_addImm_regs (nn : Byte) :
    ∃ v : Vector Byte 16, exec (.addImm x nn) s = .next { s with v := v, pc := s.pc + 2 } ∧
      ∀ r : Reg, v[r].toNat = if r = x then ((s.getV x).toNat + nn.toNat) % 256 else (s.getV r).toNat := by
  obtain ⟨v, hexec, hv⟩ := s.exists_writeReg x (s.getV x + nn)
  refine ⟨v, hexec, fun r => ?_⟩
  rw [hv r, apply_ite BitVec.toNat, BitVec.toNat_add]

/-- A result that the function `f` of two bits gives bit by bit, written to `V[x]`. -/
theorem State.exists_writeReg_bits {b : Byte} (f : Bool → Bool → Bool)
    (hbits : ∀ k, b.getLsbD k = f ((s.getV x).getLsbD k) ((s.getV y).getLsbD k)) :
    ∃ v : Vector Byte 16, Host.Outcome.next (s.writeReg x b) = (.next { s with v := v, pc := s.pc + 2 } : Result) ∧
      (∀ k < 8, v[x].getLsbD k = f ((s.getV x).getLsbD k) ((s.getV y).getLsbD k)) ∧
      ∀ r : Reg, r ≠ x → v[r] = s.getV r := by
  obtain ⟨v, hnext, hv⟩ := s.exists_writeReg x b
  refine ⟨v, hnext, fun k _ => ?written, fun r hr => ?other⟩
  case written => rw [hv x, if_pos rfl, hbits k]
  case other => rw [hv r, if_neg hr]

end Sys2Proof.Machine

namespace Sys2Proof.Claims

open Sys2Proof.Machine

/-- Settles O38: the decoder's three rows, and one register write each, of the immediate, the sum or `V[Y]`. -/
theorem loadsAndAddImmediate : Obligations.LoadsAndAddImmediate := fun x y nn s =>
  ⟨decode_formatXI_six x nn, decode_formatXI_seven x nn, decode_formatXY_ldReg x y,
    s.exists_writeReg x nn, exec_addImm_regs s x nn, s.exists_writeReg x (s.getV y)⟩

/-- Settles O39: the decoder's three rows, and one register write whose bits are those of the operands combined. -/
theorem bitwiseOperations : Obligations.BitwiseOperations := by
  refine fun x y s => ⟨decode_formatXY_orReg x y, decode_formatXY_andReg x y, decode_formatXY_xorReg x y, ?or, ?and, ?xor⟩
  case or => exact s.exists_writeReg_bits x y or fun _ => BitVec.getLsbD_or
  case and => exact s.exists_writeReg_bits x y and fun _ => BitVec.getLsbD_and
  case xor => exact s.exists_writeReg_bits x y xor fun _ => BitVec.getLsbD_xor

end Sys2Proof.Claims

end

section
/-! O44: the load of the index register (42_index_memory.md R141). The decoder's row, what the instruction does to a
state, and that the mask of `I` (R26) takes nothing from a 12-bit address. -/

namespace Sys2Proof

theorem decode_formatA_ten (nnn : Addr) : decode (formatA 0xA#4 nnn) = .ok (.ldI nnn) := by simp [decode]

end Sys2Proof

namespace Sys2Proof.Machine

/-- An address has 12 bits, so widening it to a word and masking it to 12 bits (R26) keeps its value. -/
theorem toNat_mask12_addr (nnn : Addr) : (nnn.setWidth 16 &&& 0x0FFF : Word).toNat = nnn.toNat := by
  rw [toNat_mask12, BitVec.toNat_setWidth_of_le (by decide), Nat.mod_eq_of_lt nnn.isLt]

/-- Only `I`, masked by its write (R26), and `pc` change. -/
theorem exec_ldI (nnn : Addr) (s : State) :
    exec (.ldI nnn) s = .next { s with i := nnn.setWidth 16 &&& 0x0FFF, pc := s.pc + 2 } := rfl

end Sys2Proof.Machine

namespace Sys2Proof.Claims

open Sys2Proof.Machine

/-- Settles O44: the decoder's row, and the address itself as the value `I` receives. -/
theorem loadIndex : Obligations.LoadIndex := fun nnn s =>
  ⟨decode_formatA_ten nnn, nnn.setWidth 16 &&& 0x0FFF, exec_ldI nnn s, toNat_mask12_addr nnn⟩

end Sys2Proof.Claims

end

section
/-! O17: the longest image (70_reset_and_hazards.md R207). What an accepted and what a refused load answer, and that the
boundary between them is the length 3584, whose last byte is at 0xFFF. -/

namespace Sys2Proof.Machine

variable {s : State} {bytes : List Byte}

/-- The bound on the length alone refuses a load, whatever the state (R206). -/
theorem loadAccepted_of_too_long (h : 3584 < bytes.length) : loadAccepted bytes s = false := by
  refine Bool.eq_false_iff.2 fun haccepted => ?_
  obtain ⟨-, -, hlength⟩ := (loadAccepted_iff s bytes).1 haccepted
  omega

theorem loadResult_accepted (h : loadAccepted bytes s = true) : loadResult bytes s = .ok := if_pos h

theorem loadResult_refused (h : loadAccepted bytes s = false) : loadResult bytes s = .loadError :=
  if_neg (Bool.eq_false_iff.1 h)

theorem performEvent_loadProgram_refused (h : loadAccepted bytes s = false) :
    performEvent (.loadProgram bytes) s = .next s :=
  congrArg Host.Outcome.next (loadProgram_refused s bytes h)

/-- An accepted load puts the image's bytes from 0x200 upward (R204). -/
theorem read_loadProgram (h : loadAccepted bytes s = true) {k : Nat} (hk : k < bytes.length) :
    (loadProgram bytes s).mem.read (0x200 + k) = bytes[k] := by
  rw [loadProgram_accepted s bytes h]
  exact Memory.read_writeBytes_inside bytes s.mem 0x200 k hk

end Sys2Proof.Machine

namespace Sys2Proof.Claims

open Sys2Proof.Machine

/-- Settles O17: 3584 bytes are within the bound of an accepted load and 3585 are past it. -/
theorem loadBoundaryIsExact : Obligations.LoadBoundaryIsExact := by
  refine fun s bytes hrunning hopen => ⟨fun hlength => ?fits, fun hlength => ?tooLong⟩
  case fits =>
    have haccepted : loadAccepted bytes s = true := (loadAccepted_iff s bytes).2 ⟨hrunning, hopen, hlength.le⟩
    exact ⟨loadResult_accepted haccepted, loadProgram bytes s, rfl, fun _ => read_loadProgram haccepted⟩
  case tooLong =>
    have hrefused : loadAccepted bytes s = false := loadAccepted_of_too_long (by omega)
    exact ⟨loadResult_refused hrefused, performEvent_loadProgram_refused hrefused⟩

end Sys2Proof.Claims

end

section
/-! O1, O2, O3, O4: the decoder, the encoder and the opcode table (30_encoding.md R72 to R77). The decoder's rows not yet
stated; each family's decoder inverted by `encode`; and the row of R76 a word selects, read off its fields. -/

namespace Sys2Proof

/-! ### The decoder's rows -/

section
variable (x y : Reg) (nn : Byte) (nnn : Addr) (n : Fin 16)

theorem decode_formatA_one : decode (formatA 0x1#4 nnn) = .ok (.jp nnn) := by simp [decode]

theorem decode_formatA_two : decode (formatA 0x2#4 nnn) = .ok (.call nnn) := by simp [decode]

theorem decode_formatA_eleven : decode (formatA 0xB#4 nnn) = .ok (.jpV0 nnn) := by simp [decode]

theorem decode_formatXI_twelve : decode (formatXI 0xC#4 x nn) = .ok (.rnd x nn) := by simp [decode]

theorem decode_formatXYN_thirteen : decode (formatXYN 0xD#4 x y n) = .ok (.drw x y n) := by simp [decode]

/-- The families `EXNN` and `FXNN`, whose row the low byte selects. -/
theorem decode_formatXF_fourteen : decode (formatXF 0xE#4 x nn) = decodeE (formatXF 0xE#4 x nn) := by simp [decode]

theorem decode_formatXF_fifteen : decode (formatXF 0xF#4 x nn) = decodeF (formatXF 0xF#4 x nn) := by simp [decode]

end

/-- Every instruction's word decodes to it, family by family. -/
theorem decode_encode (i : Instr) : decode (encode i) = .ok i := by
  cases i with
  | cls | ret => rfl
  | jp nnn => exact decode_formatA_one nnn
  | call nnn => exact decode_formatA_two nnn
  | seImm x nn => exact decode_formatXI_three x nn
  | sneImm x nn => exact decode_formatXI_four x nn
  | seReg x y => exact (decode_formatXY_five x y 0).trans (if_pos rfl)
  | ldImm x nn => exact decode_formatXI_six x nn
  | addImm x nn => exact decode_formatXI_seven x nn
  | ldReg x y | orReg x y | andReg x y | xorReg x y | addReg x y | subReg x y | shr x y | subnReg x y | shl x y =>
    rw [encode, decode_formatXY_eight]; simp [decode8]
  | sneReg x y => exact (decode_formatXY_nine x y 0).trans (if_pos rfl)
  | ldI nnn => exact decode_formatA_ten nnn
  | jpV0 nnn => exact decode_formatA_eleven nnn
  | rnd x nn => exact decode_formatXI_twelve x nn
  | drw x y n => exact decode_formatXYN_thirteen x y n
  | skp x | sknp x => rw [encode, decode_formatXF_fourteen]; simp [decodeE]
  | ldVxDt x | ldVxK x | ldDt x | ldSt x | addI x | ldF x | ldB x | stRegs x | ldRegs x =>
    rw [encode, decode_formatXF_fifteen]; simp [decodeF]

/-! ### A word from its fields -/

section
variable {op p : Word} {t fn : Nibble} {nn : Byte} {i : Instr}

theorem formatA_of_fieldT (ht : fieldT op = t) : formatA t (fieldNNN op) = op := ht ▸ formatA_fields op

theorem formatXI_of_fieldT (ht : fieldT op = t) : formatXI t (fieldX op) (fieldNN op) = op := ht ▸ formatXI_fields op

theorem formatXF_of_fields (h : fieldT op = t ∧ fieldNN op = nn) : formatXF t (fieldX op) nn = op :=
  h.2 ▸ formatXI_of_fieldT h.1

theorem formatXY_of_fields (h : fieldT op = t ∧ fieldFn op = fn) : formatXY t (fieldX op) (fieldY op) fn = op :=
  h.1 ▸ h.2 ▸ formatXY_fields op

theorem formatXYN_of_fieldT (ht : fieldT op = t) : formatXYN t (fieldX op) (fieldY op) (fieldN op) = op :=
  formatXY_of_fields ⟨ht, rfl⟩

/-! ### The encoder inverts each family's decoder -/

theorem encode_of_decode0 (h : decode0 op = .ok i) : encode i = op := by
  unfold decode0 at h
  split at h
  · next e => cases h; exact e.symm
  · split at h
    · next e => cases h; exact e.symm
    · cases h

theorem encode_of_decode8 (ht : fieldT op = 0x8#4) (h : decode8 op = .ok i) : encode i = op := by
  unfold decode8 at h
  split at h <;> cases h <;> exact formatXY_of_fields ⟨ht, ‹_›⟩

theorem encode_of_decodeE (ht : fieldT op = 0xE#4) (h : decodeE op = .ok i) : encode i = op := by
  unfold decodeE at h
  split at h <;> cases h <;> exact formatXF_of_fields ⟨ht, ‹_›⟩

theorem encode_of_decodeF (ht : fieldT op = 0xF#4) (h : decodeF op = .ok i) : encode i = op := by
  unfold decodeF at h
  split at h <;> cases h <;> exact formatXF_of_fields ⟨ht, ‹_›⟩

theorem encode_of_decode (h : decode op = .ok i) : encode i = op := by
  unfold decode at h
  split at h
  case h_1 => exact encode_of_decode0 h
  case h_6 ht | h_10 ht =>
    split at h
    · next hf => cases h; exact formatXY_of_fields ⟨ht, hf⟩
    · cases h
  case h_9 ht => exact encode_of_decode8 ht h
  case h_2 ht | h_3 ht | h_11 ht | h_12 ht => cases h; exact formatA_of_fieldT ht
  case h_14 ht => cases h; exact formatXYN_of_fieldT ht
  case h_15 ht => exact encode_of_decodeE ht h
  case h_16 =>
    -- the fifteen arms before leave one nibble
    have ht : fieldT op = 0xF#4 := by
      clear h
      generalize fieldT op = t at *
      revert t
      decide
    exact encode_of_decodeF ht h
  all_goals next ht => cases h; exact formatXI_of_fieldT ht

/-! ### The rows of the opcode table -/

theorem selects_mask_T (hp : fieldNNN p = 0) :
    (OpcodeRow.mk p 0xF000).selects op = true ↔ fieldT op = fieldT p := by
  conv_lhs => rw [← formatA_fields p, hp]
  exact beq_iff_eq.trans (mask_T op (fieldT p))

theorem selects_mask_TFn (hx : fieldX p = 0) (hy : fieldY p = 0) :
    (OpcodeRow.mk p 0xF00F).selects op = true ↔ fieldT op = fieldT p ∧ fieldFn op = fieldFn p := by
  conv_lhs => rw [← formatXY_fields p, hx, hy]
  exact beq_iff_eq.trans (mask_TFn op (fieldT p) (fieldFn p))

theorem selects_mask_TNN (hx : fieldX p = 0) :
    (OpcodeRow.mk p 0xF0FF).selects op = true ↔ fieldT op = fieldT p ∧ fieldNN op = fieldNN p := by
  conv_lhs => rw [← formatXI_fields p, hx]
  exact beq_iff_eq.trans (mask_TNN op (fieldT p) (fieldNN p))

theorem selects_mask_all : (OpcodeRow.mk p 0xFFFF).selects op = true ↔ op = p := by
  rw [OpcodeRow.selects, beq_iff_eq, show op &&& 0xFFFF = op from BitVec.and_allOnes]

/-- The word of an instruction selects its row. -/
theorem selects_rowOf_encode (i : Instr) : (rowOf i).selects (encode i) = true := by
  cases i with
  | cls | ret => rfl
  | jp | call | ldI | jpV0 => exact (selects_mask_T rfl).2 (fieldT_formatA _ _)
  | seImm | sneImm | ldImm | addImm | rnd => exact (selects_mask_T rfl).2 (fieldT_formatXI _ _ _)
  | drw => exact (selects_mask_T rfl).2 (fieldT_formatXYN _ _ _ _)
  | seReg | sneReg | ldReg | orReg | andReg | xorReg | addReg | subReg | shr | subnReg | shl =>
    exact (selects_mask_TFn rfl rfl).2 ⟨fieldT_formatXY _ _ _ _, fieldFn_formatXY _ _ _ _⟩
  | skp | sknp | ldVxDt | ldVxK | ldDt | ldSt | addI | ldF | ldB | stRegs | ldRegs =>
    exact (selects_mask_TNN rfl).2 ⟨fieldT_formatXI _ _ _, fieldNN_formatXI _ _ _⟩

/-- A word that selects a row is the word of an instruction of that row, with the operands of the word's fields. -/
theorem exists_encode_of_selects (h : (rowOf i).selects op = true) : ∃ j, encode j = op ∧ rowOf j = rowOf i := by
  cases i with
  | cls => exact ⟨.cls, (selects_mask_all.1 h).symm, rfl⟩
  | ret => exact ⟨.ret, (selects_mask_all.1 h).symm, rfl⟩
  | jp => exact ⟨.jp (fieldNNN op), formatA_of_fieldT ((selects_mask_T rfl).1 h), rfl⟩
  | call => exact ⟨.call (fieldNNN op), formatA_of_fieldT ((selects_mask_T rfl).1 h), rfl⟩
  | ldI => exact ⟨.ldI (fieldNNN op), formatA_of_fieldT ((selects_mask_T rfl).1 h), rfl⟩
  | jpV0 => exact ⟨.jpV0 (fieldNNN op), formatA_of_fieldT ((selects_mask_T rfl).1 h), rfl⟩
  | seImm => exact ⟨.seImm (fieldX op) (fieldNN op), formatXI_of_fieldT ((selects_mask_T rfl).1 h), rfl⟩
  | sneImm => exact ⟨.sneImm (fieldX op) (fieldNN op), formatXI_of_fieldT ((selects_mask_T rfl).1 h), rfl⟩
  | ldImm => exact ⟨.ldImm (fieldX op) (fieldNN op), formatXI_of_fieldT ((selects_mask_T rfl).1 h), rfl⟩
  | addImm => exact ⟨.addImm (fieldX op) (fieldNN op), formatXI_of_fieldT ((selects_mask_T rfl).1 h), rfl⟩
  | rnd => exact ⟨.rnd (fieldX op) (fieldNN op), formatXI_of_fieldT ((selects_mask_T rfl).1 h), rfl⟩
  | drw =>
    exact ⟨.drw (fieldX op) (fieldY op) (fieldN op), formatXYN_of_fieldT ((selects_mask_T rfl).1 h), rfl⟩
  | seReg => exact ⟨.seReg (fieldX op) (fieldY op), formatXY_of_fields ((selects_mask_TFn rfl rfl).1 h), rfl⟩
  | sneReg => exact ⟨.sneReg (fieldX op) (fieldY op), formatXY_of_fields ((selects_mask_TFn rfl rfl).1 h), rfl⟩
  | ldReg => exact ⟨.ldReg (fieldX op) (fieldY op), formatXY_of_fields ((selects_mask_TFn rfl rfl).1 h), rfl⟩
  | orReg => exact ⟨.orReg (fieldX op) (fieldY op), formatXY_of_fields ((selects_mask_TFn rfl rfl).1 h), rfl⟩
  | andReg => exact ⟨.andReg (fieldX op) (fieldY op), formatXY_of_fields ((selects_mask_TFn rfl rfl).1 h), rfl⟩
  | xorReg => exact ⟨.xorReg (fieldX op) (fieldY op), formatXY_of_fields ((selects_mask_TFn rfl rfl).1 h), rfl⟩
  | addReg => exact ⟨.addReg (fieldX op) (fieldY op), formatXY_of_fields ((selects_mask_TFn rfl rfl).1 h), rfl⟩
  | subReg => exact ⟨.subReg (fieldX op) (fieldY op), formatXY_of_fields ((selects_mask_TFn rfl rfl).1 h), rfl⟩
  | shr => exact ⟨.shr (fieldX op) (fieldY op), formatXY_of_fields ((selects_mask_TFn rfl rfl).1 h), rfl⟩
  | subnReg => exact ⟨.subnReg (fieldX op) (fieldY op), formatXY_of_fields ((selects_mask_TFn rfl rfl).1 h), rfl⟩
  | shl => exact ⟨.shl (fieldX op) (fieldY op), formatXY_of_fields ((selects_mask_TFn rfl rfl).1 h), rfl⟩
  | skp => exact ⟨.skp (fieldX op), formatXF_of_fields ((selects_mask_TNN rfl).1 h), rfl⟩
  | sknp => exact ⟨.sknp (fieldX op), formatXF_of_fields ((selects_mask_TNN rfl).1 h), rfl⟩
  | ldVxDt => exact ⟨.ldVxDt (fieldX op), formatXF_of_fields ((selects_mask_TNN rfl).1 h), rfl⟩
  | ldVxK => exact ⟨.ldVxK (fieldX op), formatXF_of_fields ((selects_mask_TNN rfl).1 h), rfl⟩
  | ldDt => exact ⟨.ldDt (fieldX op), formatXF_of_fields ((selects_mask_TNN rfl).1 h), rfl⟩
  | ldSt => exact ⟨.ldSt (fieldX op), formatXF_of_fields ((selects_mask_TNN rfl).1 h), rfl⟩
  | addI => exact ⟨.addI (fieldX op), formatXF_of_fields ((selects_mask_TNN rfl).1 h), rfl⟩
  | ldF => exact ⟨.ldF (fieldX op), formatXF_of_fields ((selects_mask_TNN rfl).1 h), rfl⟩
  | ldB => exact ⟨.ldB (fieldX op), formatXF_of_fields ((selects_mask_TNN rfl).1 h), rfl⟩
  | stRegs => exact ⟨.stRegs (fieldX op), formatXF_of_fields ((selects_mask_TNN rfl).1 h), rfl⟩
  | ldRegs => exact ⟨.ldRegs (fieldX op), formatXF_of_fields ((selects_mask_TNN rfl).1 h), rfl⟩

theorem mem_opcodeTable (i : Instr) : rowOf i ∈ opcodeTable := by
  cases i <;> simp [opcodeTable, opcodeRowSamples, rowOf]

/-- A row a word selects is the row of the instruction the word decodes to. -/
theorem decode_of_selects {r : OpcodeRow} (hr : r ∈ opcodeTable) (h : r.selects op = true) :
    ∃ i, decode op = .ok i ∧ rowOf i = r := by
  obtain ⟨j, -, rfl⟩ := List.mem_map.1 hr
  obtain ⟨i, rfl, hrow⟩ := exists_encode_of_selects h
  exact ⟨i, decode_encode i, hrow⟩

end
end Sys2Proof

namespace Sys2Proof.Claims

open Sys2Proof.Machine

/-- Settles O1: the word decodes back, and decoding its two bytes is decoding the word. -/
theorem decodeOfEncodeIsTheInstruction : Obligations.DecodeOfEncodeIsTheInstruction := fun i _ =>
  ⟨decode_encode i, fun rest => by rw [decodeBytes_bytesOfWord, decode_encode i]; rfl⟩

/-- Settles O2: the fields of the word make it again, in each family's format. -/
theorem encodeOfDecodeIsTheWord : Obligations.EncodeOfDecodeIsTheWord := fun _ _ => encode_of_decode

/-- Settles O3: a word that selects a row decodes to an instruction of that row, so it selects no row but that of the
instruction it decodes to, and none where it decodes to none. -/
theorem decodeFollowsTheOpcodeTable : Obligations.DecodeFollowsTheOpcodeTable := by
  refine fun op => ⟨fun i hi => ⟨mem_opcodeTable i, ?selects, fun r hr hsel => ?unique⟩,
    fun e he => ⟨decode_error he, fun r hr => ?rejected⟩⟩
  case selects => exact encode_of_decode hi ▸ selects_rowOf_encode i
  case unique =>
    obtain ⟨j, hj, rfl⟩ := decode_of_selects hr hsel
    cases hj.symm.trans hi
    rfl
  case rejected =>
    refine Bool.eq_false_iff.2 fun hsel => ?_
    obtain ⟨j, hj, -⟩ := decode_of_selects hr hsel
    cases hj.symm.trans he

/-- Settles O4: each word's arm of the decoder, evaluated. -/
theorem sampleWordsDecode : Obligations.SampleWordsDecode := by
  refine ⟨?_, ?_, ?_, ?_, ?_, ?_⟩ <;> rfl

end Sys2Proof.Claims

end

section
/-! O30 to O34, O37: jumps, call and return (40_control_flow.md R101 to R103, R108). What `00EE` and `2NNN` answer where
their test passes and where it fails; the jumps have one outcome each. -/

namespace Sys2Proof.Machine

variable {s : State} {nnn : Addr}

/-! ### The stack instructions under their tests -/

theorem exec_ret_of_empty (h : s.sp.val = 0) : exec .ret s = .next (s.raise .stackUnderflow 0x00EE) := by
  rcases execRet_cases s with ⟨-, e⟩ | ⟨hne, -⟩
  · exact e
  · exact absurd h hne

/-- The entry popped is the one below `sp` (R101). -/
theorem exec_ret_of_top (k : Fin 16) (h : s.sp.val = k.val + 1) :
    exec .ret s = .next { s with sp := k.castSucc, pc := s.stack[k] + 2 } := by
  rcases execRet_cases s with ⟨h0, -⟩ | ⟨-, e⟩
  · omega
  · refine Eq.trans e ?_
    simp [h, Fin.castSucc, Fin.castAdd, Fin.castLE]

theorem exec_call_of_full (h : s.sp.val = 16) :
    exec (.call nnn) s = .next (s.raise .stackOverflow (encode (.call nnn))) := by
  rcases execCall_cases s nnn with ⟨-, e⟩ | ⟨hlt, -⟩
  · exact e
  · omega

/-- The address pushed is that of the `2NNN` word itself (R103). -/
theorem exec_call_of_lt (h : s.sp.val < 16) :
    exec (.call nnn) s =
      .next { s with stack := s.stack.set s.sp.val s.pc, sp := ⟨s.sp.val + 1, by omega⟩, pc := nnn.setWidth 16 } := by
  rcases execCall_cases s nnn with ⟨h16, -⟩ | ⟨_, e⟩
  · omega
  · exact e

/-! ### The jumps -/

theorem exec_jp : exec (.jp nnn) s = .next { s with pc := nnn.setWidth 16 } := rfl

/-- A running core whose `pc` left the memory faults at its next `Step` (R53). -/
theorem performEvent_step_of_pc_out (hr : s.Running) (h : 0xFFE < s.pc.toNat) :
    performEvent .step s = .next (s.closeLoad.raise .fetchOutOfRange 0x0000) :=
  (cpuStep_running s hr).trans (State.runOne_fetch_none _ (State.fetch_none _ h))

/-- The sum of a byte and an address fits in a word, so it does not wrap (R108). -/
theorem toNat_byte_add_addr (b : Byte) :
    (b.setWidth 16 + nnn.setWidth 16 : Word).toNat = b.toNat + nnn.toNat := by
  rw [BitVec.toNat_add_of_lt] <;> rw [BitVec.toNat_setWidth_of_le (by decide), BitVec.toNat_setWidth_of_le (by decide)]
  omega

end Sys2Proof.Machine

namespace Sys2Proof.Claims

open Sys2Proof.Machine

/-- Settles O30: a jump writes `pc` alone; a jump to 0xFFF leaves a `pc` at which no word can be fetched. -/
theorem jumpSetsPc : Obligations.JumpSetsPc := by
  refine fun nnn s => ⟨decode_formatA_one nnn, exec_jp, fun h => ?self, fun hnnn hr => ⟨_, exec_jp, ?last⟩⟩
  case self => rw [exec_jp, ← h]
  case last =>
    subst hnnn
    exact performEvent_step_of_pc_out hr (show 0xFFE < ((0xFFF : Addr).setWidth 16 : Word).toNat by decide)

/-- Settles O31: the pushed entry is the one at the old `sp`. -/
theorem callPushesItsOwnAddress : Obligations.CallPushesItsOwnAddress := by
  refine fun nnn s h => ⟨_, _, exec_call_of_lt h, rfl, fun j => ?_⟩
  simp [Vector.getElem_set, eq_comm]

/-- Settles O32: the entry popped is the one below `sp`. -/
theorem returnPopsAndStepsOverTheCall : Obligations.ReturnPopsAndStepsOverTheCall := by
  intro s h
  have hlt := s.sp.isLt
  exact ⟨_, rfl, exec_ret_of_top ⟨s.sp.val - 1, by omega⟩ (by simp only; omega)⟩

/-- Settles O33: the two tests that fail. -/
theorem stackFaults : Obligations.StackFaults :=
  ⟨fun _ _ => exec_call_of_full, fun _ => exec_ret_of_empty⟩

/-- Settles O34: the entry the return pops is the one the call pushed. -/
theorem returnUndoesCall : Obligations.ReturnUndoesCall := by
  refine fun nnn s h => ⟨_, exec_call_of_lt h, fun t' hstack hsp => ?_⟩
  have hpushed : t'.stack[s.sp.val] = s.pc := by simp [hstack]
  exact hpushed ▸ exec_ret_of_top ⟨s.sp.val, h⟩ (congrArg Fin.val hsp)

/-- Settles O37: the 16-bit sum is the sum of the integers. -/
theorem jumpWithOffsetAddsV0 : Obligations.JumpWithOffsetAddsV0 := fun _ _ =>
  ⟨_, rfl, toNat_byte_add_addr _⟩

end Sys2Proof.Claims

end

section
/-! O40 to O43: the rows of the ALU with two effects (41_alu.md R121, R128 to R132) and the masked free byte (R133). All
two-effect rows end in `State.flagThenResult`, so one lemma reads off the registers; each row adds its arithmetic. -/

namespace Sys2Proof.Machine

variable (s : State) (x y : Reg)

/-- The registers after a flag then a result, as numbers. -/
theorem State.exists_flagThenResult (flag : Byte) (result : State → Byte) :
    ∃ v : Vector Byte 16,
      Host.Outcome.next (s.flagThenResult flag x result) = (.next { s with v := v, pc := s.pc + 2 } : Result) ∧
      ∀ r : Reg, v[r].toNat =
        if r = x then (result (s.setV VF flag)).toNat else if r = VF then flag.toNat else (s.getV r).toNat := by
  refine ⟨_, congrArg Host.Outcome.next (s.flagThenResult_eq flag x result), fun r => ?_⟩
  refine (congrArg BitVec.toNat (s.getV_flagThenResult flag x result r)).trans ?_
  rw [apply_ite BitVec.toNat, apply_ite BitVec.toNat]

theorem State.toNat_getV_setV (r r' : Reg) (b : Byte) :
    ((s.setV r b).getV r').toNat = if r' = r then b.toNat else (s.getV r').toNat := by
  rw [State.getV_setV, apply_ite BitVec.toNat]

/-- A row of two operands: `f` on bytes is `g` on numbers, and the operands are read after the flag `c` is written. -/
theorem State.exists_flagThenResult_binary {flag : Byte} {f : Byte → Byte → Byte} {c : Nat} (g : Nat → Nat → Nat)
    (hc : flag.toNat = c) (hfg : ∀ a b, (f a b).toNat = g a.toNat b.toNat) :
    ∃ v : Vector Byte 16,
      Host.Outcome.next (s.flagThenResult flag x fun t => f (t.getV x) (t.getV y)) =
        (.next { s with v := v, pc := s.pc + 2 } : Result) ∧
      ∃ c' a b : Nat, c' = c ∧
        a = (if x = VF then c' else (s.getV x).toNat) ∧ b = (if y = VF then c' else (s.getV y).toNat) ∧
        ∀ r : Reg, v[r].toNat = if r = x then g a b else if r = VF then c' else (s.getV r).toNat := by
  obtain ⟨v, hnext, hv⟩ := s.exists_flagThenResult x flag fun t => f (t.getV x) (t.getV y)
  refine ⟨v, hnext, c, _, _, rfl, rfl, rfl, fun r => ?_⟩
  rw [hv r, hfg, State.toNat_getV_setV, State.toNat_getV_setV, hc]

/-- A row of one operand: `f` on bytes is `g` on numbers, and the operand is read after the flag `c` is written. -/
theorem State.exists_flagThenResult_unary {flag : Byte} {f : Byte → Byte} {c : Nat} (g : Nat → Nat)
    (hc : flag.toNat = c) (hfg : ∀ a, (f a).toNat = g a.toNat) (h0 : g c = 0) :
    ∃ v : Vector Byte 16,
      Host.Outcome.next (s.flagThenResult flag x fun t => f (t.getV x)) =
        (.next { s with v := v, pc := s.pc + 2 } : Result) ∧
      ∀ r : Reg, v[r].toNat =
        if r = x then (if x = VF then 0 else g (s.getV x).toNat) else if r = VF then c else (s.getV r).toNat := by
  obtain ⟨v, hnext, hv⟩ := s.exists_flagThenResult x flag fun t => f (t.getV x)
  refine ⟨v, hnext, fun r => ?_⟩
  rw [hv r, hfg, State.toNat_getV_setV, hc, apply_ite g, h0]

/-! ### The flags and the results as numbers -/

theorem toNat_carryOut (a b : Byte) : (carryOut a b).toNat = if a.toNat + b.toNat > 255 then 1 else 0 := by
  rw [carryOut, toNat_flagOf]; simp only [decide_eq_true_eq]

theorem toNat_shiftedOutRight (a : Byte) : (shiftedOutRight a).toNat = a.toNat % 2 := by
  rw [shiftedOutRight, BitVec.toNat_and]
  exact Nat.and_one_is_mod _

/-- The bit shifted out on the left stays in its place, bit 7 (D7). -/
theorem toNat_shiftedOutLeft (a : Byte) : (shiftedOutLeft a).toNat = if 128 ≤ a.toNat then 128 else 0 := by
  have hbit : shiftedOutLeft a = a &&& BitVec.twoPow 8 7 := rfl
  have hmsb : a.getLsbD 7 = decide (128 ≤ a.toNat) := a.msb_eq_getLsbD_last.symm.trans (BitVec.msb_eq_decide a)
  rw [hbit, BitVec.and_twoPow, hmsb, apply_ite BitVec.toNat]
  simp only [decide_eq_true_eq]
  rfl

theorem toNat_sub_byte (a b : Byte) : (a - b).toNat = (a.toNat + 256 - b.toNat) % 256 := by
  rw [BitVec.toNat_sub]
  omega

theorem toNat_shiftRight_one (a : Byte) : (a >>> 1).toNat = a.toNat / 2 := by
  rw [BitVec.toNat_ushiftRight, Nat.shiftRight_eq_div_pow, pow_one]

theorem toNat_shiftLeft_one (a : Byte) : (a <<< 1).toNat = 2 * a.toNat % 256 := by
  rw [BitVec.toNat_shiftLeft, Nat.shiftLeft_eq, pow_one, Nat.mul_comm]

end Sys2Proof.Machine

namespace Sys2Proof.Claims

open Sys2Proof.Machine

/-- Settles O40: the carry is the flag, the sum modulo 256 the result. -/
theorem addWithCarry : Obligations.AddWithCarry := fun x y s =>
  s.exists_flagThenResult_binary x y (fun a b => (a + b) % 256) (toNat_carryOut _ _) BitVec.toNat_add

/-- Settles O41: not-borrow is the flag, the difference modulo 256 the result, the operands exchanged in `8XY7`. -/
theorem subtractWithNotBorrow : Obligations.SubtractWithNotBorrow := fun x y s =>
  ⟨s.exists_flagThenResult_binary x y (fun a b => (a + 256 - b) % 256) (toNat_notBorrow _ _) toNat_sub_byte,
    s.exists_flagThenResult_binary x y (fun a b => (b + 256 - a) % 256) (toNat_notBorrow _ _)
      fun a b => toNat_sub_byte b a⟩

/-- Settles O42: either bit, shifted once more as `V[0xF]`, is shifted out. -/
theorem shiftsByOne : Obligations.ShiftsByOne := by
  refine fun x y s => ⟨?right, ?left⟩
  case right =>
    exact s.exists_flagThenResult_unary x (· / 2) (toNat_shiftedOutRight _) toNat_shiftRight_one (by omega)
  case left =>
    exact s.exists_flagThenResult_unary x (2 * · % 256) (toNat_shiftedOutLeft _) toNat_shiftLeft_one
      (by split <;> rfl)

/-- Settles O43: one register write of the free byte masked bit by bit. -/
theorem randomByteIsMasked : Obligations.RandomByteIsMasked := by
  refine fun x nn s => ⟨s.v.set x (Config.freeRnd s.draws &&& nn), rfl, fun b _ => ?masked, fun r hr => ?other⟩
  case masked => exact (congrArg (BitVec.getLsbD · b) (s.getV_setV_self x _)).trans BitVec.getLsbD_and
  case other => exact s.getV_setV_other x r _ hr

end Sys2Proof.Claims

end

section
/-! O45 to O52: the index register and memory instructions (42_index_memory.md R142 to R146). The sums of `I` as numbers;
then what a store and a load answer under each of their tests, from which the statements about bytes follow. -/

namespace Sys2Proof.Machine

variable {s : State} {x : Reg}

/-! ### The index register -/

theorem toNat_indexOverflow (i : Word) (a : Byte) :
    (indexOverflow i a).toNat = if a.toNat + i.toNat > 0xFFF then 1 else 0 := by
  rw [indexOverflow, toNat_flagOf]; simp only [decide_eq_true_eq]

/-- From `I ≤ 0xFFF` the 16-bit sum does not wrap, so the mask alone reduces it (R142). -/
theorem toNat_index_add (i : Word) (a : Byte) (hi : i.toNat ≤ 0xFFF) :
    (i + a.setWidth 16 &&& 0x0FFF).toNat = (i.toNat + a.toNat) % 0x1000 := by
  have ha := BitVec.toNat_setWidth_of_le (b := a) (show 8 ≤ 16 by decide)
  have hlt := a.isLt
  rw [toNat_mask12, BitVec.toNat_add_of_lt (by omega), ha]

/-- A glyph's address keeps its value under the mask: the largest is 0x050 + 5 * 0xFF (R143). -/
theorem toNat_glyphAddr (b : Byte) : (glyphAddr b &&& 0x0FFF).toNat = 0x050 + 5 * b.toNat := by
  have hb := b.isLt
  rw [toNat_mask12, glyphAddr, BitVec.toNat_ofNat, show Config.fontBase = 0x050 from rfl]
  omega

theorem exec_ldF : exec (.ldF x) s = .next { s with i := glyphAddr (s.getV x) &&& 0x0FFF, pc := s.pc + 2 } := rfl

theorem exec_addI : exec (.addI x) s =
    .next { s with
      v := (s.setV VF (indexOverflow s.i (s.getV x))).v
      i := s.i + ((s.setV VF (indexOverflow s.i (s.getV x))).getV x).setWidth 16 &&& 0x0FFF
      pc := s.pc + 2 } := rfl

/-- The font region reads as the font wherever the low memory is at its reset contents. -/
theorem State.Inv.read_font (h : s.Inv) {k : Nat} (hk : k < 0x1B0) :
    s.mem.read (0x050 + k) = Config.font.getD k 0 := by
  rw [h.low _ (by omega), Memory.unlisted, show Config.fontBase = 0x050 from rfl, if_pos (by omega),
    Nat.add_sub_cancel_left]

/-! ### The stores -/

section
variable {op : Word} {bytes : List Byte}

theorem storeAtI_of_check_some {c : Cause} (h : checkRange writeCheck s.base bytes.length = some c) :
    storeAtI op bytes s = .next (s.raise c op) := by
  rw [storeAtI, h]

theorem storeAtI_of_check_none (h : checkRange writeCheck s.base bytes.length = none) :
    storeAtI op bytes s = .next (s.setMem (s.mem.writeBytes s.base bytes)).advance := by
  rw [storeAtI, h]

theorem storeAtI_of_out (h : 0x1000 < s.base + bytes.length) (hlow : 0x200 ≤ s.base)
    (hb : 0 < bytes.length) : storeAtI op bytes s = .next (s.raise .memOutOfRange op) :=
  storeAtI_of_check_some (checkRange_write_out _ _ hb h hlow)

theorem storeAtI_of_low (h : s.base < 0x200) (hb : 0 < bytes.length) :
    storeAtI op bytes s = .next (s.raise .storeToReserved op) :=
  storeAtI_of_check_some (checkRange_write_low _ _ hb h)

end

theorem length_bcdDigits_pos (b : Byte) : 0 < (bcdDigits b).length := Nat.succ_pos 2

theorem State.length_regsThrough_pos (s : State) (x : Reg) : 0 < (s.regsThrough x).length := by simp

theorem exec_ldB_of_range (hlow : 0x200 ≤ s.i.toNat) (hhigh : s.i.toNat + 2 ≤ 0xFFF) :
    exec (.ldB x) s =
      .next { s with mem := s.mem.writeBytes s.i.toNat (bcdDigits (s.getV x)), pc := s.pc + 2 } :=
  storeAtI_ok s _ _ (length_bcdDigits_pos _) hlow (show s.i.toNat + 3 ≤ 0x1000 by omega)

theorem exec_stRegs_of_range (hlow : 0x200 ≤ s.i.toNat) (hhigh : s.i.toNat + x.val ≤ 0xFFF) :
    exec (.stRegs x) s =
      .next { s with mem := s.mem.writeBytes s.i.toNat (s.regsThrough x), pc := s.pc + 2 } :=
  storeAtI_ok s _ _ (s.length_regsThrough_pos x) hlow (show s.i.toNat + _ ≤ _ by rw [State.length_regsThrough]; omega)

/-- The digits in memory, hundreds first (R144). -/
theorem Memory.toNat_read_bcdDigits (m : Memory) (a : Nat) (b : Byte) {k : Nat} (hk : k < 3) :
    ((m.writeBytes a (bcdDigits b)).read (a + k)).toNat = b.toNat / 10 ^ (2 - k) % 10 := by
  have hb := b.isLt
  rw [Memory.read_writeBytes_inside (bcdDigits b) m a k hk]
  match k, hk with
  | 0, _ | 1, _ | 2, _ =>
    simp only [bcdDigits, List.getElem_cons_zero, List.getElem_cons_succ, BitVec.toNat_ofNat]
    omega

/-- A block of registers in memory: the register of each address, the old byte outside the block (R145). -/
theorem Memory.read_writeBytes_regsThrough (m : Memory) (a : Nat) (k : Reg) (h : k ≤ x) :
    (m.writeBytes a (s.regsThrough x)).read (a + k.val) = s.getV k := by
  rw [Memory.read_writeBytes_inside _ _ _ _ (by rw [State.length_regsThrough]; exact Nat.lt_succ_of_le h),
    State.getElem_regsThrough _ _ _ h]

/-! ### The load -/

theorem exec_ldRegs_of_range (h : s.i.toNat + x.val ≤ 0xFFF) :
    exec (.ldRegs x) s =
      .next { s with v := (s.loadRegs 0 (s.mem.readBytes s.base (x.val + 1))).v, pc := s.pc + 2 } := by
  rcases execLdRegs_cases s x with ⟨hout, -⟩ | ⟨-, e⟩
  · omega
  · refine Eq.trans e ?_
    rw [State.loadRegs_eq]
    rfl

theorem exec_ldRegs_of_out (h : 0xFFF < s.i.toNat + x.val) :
    exec (.ldRegs x) s = .next (s.raise .memOutOfRange (encode (.ldRegs x))) := by
  rcases execLdRegs_cases s x with ⟨-, e⟩ | ⟨hin, -⟩
  · exact e
  · omega

/-- The registers after a load of `V0` to `VX` from `a`: those up to `X` from memory, the others as before (R146). -/
theorem State.getV_loadRegs_readBytes (m : Memory) (a : Nat) (k : Reg) :
    (s.loadRegs 0 (m.readBytes a (x.val + 1))).getV k = if k ≤ x then m.read (a + k.val) else s.getV k := by
  rw [State.getV_loadRegs]
  by_cases h : k ≤ x
  · have hk : k.val < x.val + 1 := Nat.lt_succ_of_le h
    rw [if_pos h, dif_pos ⟨k.val.zero_le, by simpa using hk⟩]
    exact Memory.getElem_readBytes m a _ k.val hk
  · rw [if_neg h, dif_neg fun hk => h (Nat.le_of_lt_succ (by simpa using hk.2))]

end Sys2Proof.Machine

namespace Sys2Proof.Claims

open Sys2Proof.Machine

/-- Settles O45: the flag is the overflow of the unmasked sum, `I` the masked sum. -/
theorem addToIndex : Obligations.AddToIndex := by
  refine fun x s hi =>
    ⟨_, _, exec_addI, (indexOverflow s.i (s.getV x)).toNat, toNat_indexOverflow _ _, ?sum, fun r => ?regs⟩
  case sum =>
    refine (toNat_index_add s.i _ hi).trans ?_
    rw [State.toNat_getV_setV]
  case regs => exact s.toNat_getV_setV VF r _

/-- Settles O46: the glyph's address is not cut by the mask, and lies in the font where `V[X] ≤ 0x0F`. -/
theorem pointIndexAtGlyph : Obligations.PointIndexAtGlyph := by
  refine fun x s => ⟨_, exec_ldF, toNat_glyphAddr _, fun hx hinv k hk => ?_⟩
  rw [toNat_glyphAddr, Nat.add_assoc]
  exact hinv.read_font (by omega)

/-- Settles O47: the digits are the quotients by 100, 10 and 1, modulo 10. -/
theorem storeDecimalDigits : Obligations.StoreDecimalDigits := by
  intro x s hlow hhigh
  have hlt := (s.getV x).isLt
  refine ⟨_, exec_ldB_of_range hlow hhigh, (s.getV x).toNat / 100 % 10, (s.getV x).toNat / 10 % 10,
    (s.getV x).toNat / 1 % 10, by omega, by omega, by omega, by omega, ?hundreds, ?tens, ?ones,
    fun a => Memory.read_writeBytes_outside (bcdDigits _) _ _ a⟩
  case hundreds => exact Memory.toNat_read_bcdDigits _ _ _ (by decide : 0 < 3)
  case tens => exact Memory.toNat_read_bcdDigits _ _ _ (by decide : 1 < 3)
  case ones => exact Memory.toNat_read_bcdDigits _ _ _ (by decide : 2 < 3)

/-- Settles O48: the block of registers is written at `I`. -/
theorem storeRegisters : Obligations.StoreRegisters := by
  refine fun x s hlow hhigh => ⟨_, exec_stRegs_of_range hlow hhigh,
    fun k hk => Memory.read_writeBytes_regsThrough _ _ k hk, fun a ha => ?_⟩
  exact Memory.read_writeBytes_outside _ _ _ _ (by rw [State.length_regsThrough]; omega)

/-- Settles O49: the registers up to X come from memory. -/
theorem loadRegisters : Obligations.LoadRegisters := fun _ s h =>
  ⟨_, exec_ldRegs_of_range h, State.getV_loadRegs_readBytes s.mem s.i.toNat⟩

/-- Settles O50: the tests of a store and of a load, failed. -/
theorem loadAndStoreFaults : Obligations.LoadAndStoreFaults := by
  refine fun x s => ⟨fun h => ?_, fun h => ?_, fun h => ?_, fun h => ?_, exec_ldRegs_of_out⟩
  · exact storeAtI_of_out (show 0x1000 < s.i.toNat + 3 by omega) (show 0x200 ≤ s.i.toNat by omega) (length_bcdDigits_pos _)
  · exact storeAtI_of_low h (length_bcdDigits_pos _)
  · have hx := x.isLt
    exact storeAtI_of_out (by rw [State.length_regsThrough]; exact show 0x1000 < s.i.toNat + _ by omega)
      (show 0x200 ≤ s.i.toNat by omega) (s.length_regsThrough_pos x)
  · exact storeAtI_of_low h (s.length_regsThrough_pos x)

/-- Settles O51: the load reads the addresses the store wrote. -/
theorem loadGivesBackWhatWasStored : Obligations.LoadGivesBackWhatWasStored := by
  intro x s hlow hhigh
  obtain ⟨m, hstore, hread, -⟩ := storeRegisters x s hlow hhigh
  refine ⟨_, hstore, fun t' hm hi => ?_⟩
  change t'.mem = m at hm
  change t'.i = s.i at hi
  obtain ⟨v, hload, hv⟩ := loadRegisters x t' (hi ▸ hhigh)
  refine ⟨_, hload, fun k => (hv k).trans ?_⟩
  by_cases hk : k ≤ x
  · rw [if_pos hk, if_pos hk, hm, hi, hread k hk]
  · rw [if_neg hk, if_neg hk]

/-- Settles O52: the store leaves `pc` at `I`, where V0 and V1 now are. -/
theorem storedWordIsFetchedNext : Obligations.StoredWordIsFetchedNext := by
  intro x s hx hi hlow hhigh
  obtain ⟨m, hstore, hread, -⟩ := storeRegisters x s hlow hhigh
  have hpc : (s.pc + 2).toNat = s.i.toNat := by rw [BitVec.toNat_add_of_lt] <;> simp <;> omega
  refine ⟨_, hstore, (State.fetch_some _ (by simp only; omega)).trans ?_⟩
  have h0 : m.read s.i.toNat = s.getV 0 := hread 0 (Nat.zero_le _)
  have h1 : m.read (s.i.toNat + 1) = s.getV 1 := hread 1 hx
  simp only [hpc, h0, h1]

end Sys2Proof.Claims

end

section
/-! O53 to O56: the display instructions (43_display.md R151 to R153). `State.drawn` is the state after a draw; the
statements follow from what it shows at each pixel and in each register, and from the tests that precede it. -/

namespace Sys2Proof.Machine

/-- The state after a draw that toggles the pixels `ps` (R152): VF cleared, the toggles, the request, `pc + 2`. -/
def State.drawn (s : State) (ps : List Pixel) : State := ((s.setV VF 0).drawPixels ps).requestDraw.advance

section
variable {s : State} {ps : List Pixel}

/-- A draw writes registers, framebuffer, log, `drawReq` and `pc`, and nothing else. -/
theorem State.drawn_eq (h : ps.Nodup) :
    s.drawn ps = { s with
      v := (s.drawn ps).v
      fb := (s.drawn ps).fb
      log := s.log ++ ps.map fun p => ⟨p, !s.fb.get p⟩
      drawReq := true
      pc := s.pc + 2 } := by
  have hlog := (s.setV VF 0).drawPixels_log ps h
  conv_lhs => rw [State.drawn, State.drawPixels_eq, hlog]
  rfl

theorem State.get_drawn_fb (h : ps.Nodup) (p : Pixel) : (s.drawn ps).fb.get p = (s.fb.get p != decide (p ∈ ps)) :=
  (s.setV VF 0).drawPixels_fb ps h p

theorem State.get_drawn_fb_of_mem (h : ps.Nodup) {p : Pixel} (hp : p ∈ ps) : (s.drawn ps).fb.get p = !s.fb.get p := by
  simp [State.get_drawn_fb h, hp]

theorem State.get_drawn_fb_of_not_mem (h : ps.Nodup) {p : Pixel} (hp : p ∉ ps) :
    (s.drawn ps).fb.get p = s.fb.get p := by
  simp [State.get_drawn_fb h, hp]

/-- A second draw of the same pixels restores the framebuffer (R153 a). -/
theorem State.drawn_drawn_fb (h : ps.Nodup) : ((s.drawn ps).drawn ps).fb = s.fb :=
  Framebuffer.ext_get fun p => by
    by_cases hp : p ∈ ps
    · rw [State.get_drawn_fb_of_mem h hp, State.get_drawn_fb_of_mem h hp, Bool.not_not]
    · rw [State.get_drawn_fb_of_not_mem h hp, State.get_drawn_fb_of_not_mem h hp]

/-- VF reports whether a toggled pixel was on; the other registers keep their value (R152). -/
theorem State.getV_drawn (h : ps.Nodup) (r : Reg) :
    (s.drawn ps).getV r = if r = VF then (if ∃ p ∈ ps, s.fb.get p = true then 1 else 0) else s.getV r := by
  refine ((s.setV VF 0).drawPixels_getV ps h r).trans ?_
  rw [State.getV_setV, State.setV_fb]
  by_cases hr : r = VF <;> simp [hr]

theorem State.getV_drawn_other (h : ps.Nodup) {r : Reg} (hr : r ≠ VF) : (s.drawn ps).getV r = s.getV r := by
  rw [State.getV_drawn h, if_neg hr]

theorem State.getV_drawn_collision (h : ps.Nodup) (hp : ∃ p ∈ ps, s.fb.get p = true) : (s.drawn ps).getV VF = 1 := by
  rw [State.getV_drawn h, if_pos rfl, if_pos hp]

theorem State.getV_drawn_no_collision (h : ps.Nodup) (hp : ∀ p ∈ ps, s.fb.get p = false) :
    (s.drawn ps).getV VF = 0 := by
  rw [State.getV_drawn h, if_pos rfl, if_neg]
  rintro ⟨p, hmem, hon⟩
  simp [hp p hmem] at hon

end

/-! ### The sprite and its tests -/

/-- The coordinates a draw toggles, in order. -/
def State.drawCoords (s : State) (x y : Reg) (n : Fin 16) : List (Nat × Nat) :=
  spritePixels (s.getV x).toNat (s.getV y).toNat (s.spriteRows n)

section
variable {s : State} {x y : Reg} {n : Fin 16} {ps : List Pixel}

theorem State.drawCoords_eq_toggledInOrder : s.drawCoords x y n = Claims.toggledInOrder s x y n :=
  spritePixels_readBytes _ _ _ _ _

theorem State.mem_drawCoords {c : Nat × Nat} : c ∈ s.drawCoords x y n ↔
    ∃ r k, r < n.val ∧ k < 8 ∧ Claims.spriteBit s r k = true ∧ c = ((s.getV x).toNat + k, (s.getV y).toNat + r) :=
  mem_spritePixels_readBytes _ _ _ _ _ _

theorem State.onGrid_drawCoords_none : onGrid (s.drawCoords x y n) = none ↔ ¬ Claims.spriteOnGrid s x y n := by
  rw [onGrid_none]
  constructor
  · rintro ⟨c, hc, hout⟩ hgrid
    obtain ⟨r, k, hr, hk, hbit, rfl⟩ := State.mem_drawCoords.1 hc
    exact hout (hgrid r k hr hk hbit)
  · intro hout
    by_contra hall
    push Not at hall
    exact hout fun r k hr hk hbit => hall _ (State.mem_drawCoords.2 ⟨r, k, hr, hk, hbit, rfl⟩)

theorem State.exists_onGrid_drawCoords (h : Claims.spriteOnGrid s x y n) : ∃ ps, onGrid (s.drawCoords x y n) = some ps :=
  Option.ne_none_iff_exists'.1 fun hnone => State.onGrid_drawCoords_none.1 hnone h

/-- The pixels drawn are the covered ones (R150). -/
theorem State.covers_iff_mem (h : onGrid (s.drawCoords x y n) = some ps) (p : Pixel) :
    Claims.covers s x y n p ↔ p ∈ ps := by
  rw [mem_onGrid _ _ h, State.mem_drawCoords]
  simp only [Claims.covers, Prod.mk.injEq]

theorem exec_drw_of_unreadable (h : ¬ Claims.spriteReadable s n) :
    exec (.drw x y n) s = .next (s.raise .memOutOfRange (encode (.drw x y n))) := by
  rcases execDrw_cases s x y n with ⟨-, e⟩ | ⟨hread, -⟩ | ⟨hread, -⟩
  · exact e
  · exact absurd hread h
  · exact absurd hread h

theorem exec_drw_of_offGrid (hread : Claims.spriteReadable s n) (h : onGrid (s.drawCoords x y n) = none) :
    exec (.drw x y n) s = .next (s.raise .pixelOutOfRange (encode (.drw x y n))) := by
  rcases execDrw_cases s x y n with ⟨⟨hn, hout⟩, -⟩ | ⟨-, -, e⟩ | ⟨-, ps, hps, -⟩
  · rcases hread with h0 | hin
    · exact absurd h0 hn
    · omega
  · exact e
  · cases h.symm.trans hps

theorem exec_drw_of_onGrid (hread : Claims.spriteReadable s n) (h : onGrid (s.drawCoords x y n) = some ps) :
    exec (.drw x y n) s = .next (s.drawn ps) := by
  rcases execDrw_cases s x y n with ⟨⟨hn, hout⟩, -⟩ | ⟨-, hnone, -⟩ | ⟨-, ps', hps, e⟩
  · rcases hread with h0 | hin
    · exact absurd h0 hn
    · omega
  · cases h.symm.trans hnone
  · cases h.symm.trans hps
    exact e

/-- A draw that ends on a running core has passed both tests. -/
theorem exists_drawn_of_running {t : State} (h : exec (.drw x y n) s = .next t) (ht : t.Running) :
    Claims.spriteReadable s n ∧ ∃ ps, onGrid (s.drawCoords x y n) = some ps ∧ ps.Nodup ∧ t = s.drawn ps := by
  rcases execDrw_cases s x y n with ⟨-, e⟩ | ⟨-, -, e⟩ | ⟨hread, ps, hps, e⟩ <;> cases h.symm.trans e
  · exact absurd ht (State.not_running_raise _ (by decide))
  · exact absurd ht (State.not_running_raise _ (by decide))
  · exact ⟨hread, ps, hps, nodup_onGrid _ _ _ _ hps, rfl⟩

end
end Sys2Proof.Machine

namespace Sys2Proof.Claims

open Sys2Proof.Machine

/-- Settles O53: the blank framebuffer has no pixel on. -/
theorem clearDisplay : Obligations.ClearDisplay := fun _ => ⟨Framebuffer.blank, rfl, Framebuffer.get_blank⟩

/-- Settles O54: the pixels drawn are the covered ones, each once. -/
theorem drawTogglesTheSprite : Obligations.DrawTogglesTheSprite := by
  intro x y n s hread hgrid
  obtain ⟨ps, hps⟩ := State.exists_onGrid_drawCoords hgrid
  have hnodup : ps.Nodup := nodup_onGrid _ _ _ _ hps
  have hcovers := State.covers_iff_mem hps
  refine ⟨_, _, _, (exec_drw_of_onGrid hread hps).trans (congrArg _ (State.drawn_eq hnodup)),
    fun p hp => State.get_drawn_fb_of_mem hnodup ((hcovers p).1 hp),
    fun p hp => State.get_drawn_fb_of_not_mem hnodup (hp ∘ (hcovers p).2),
    fun r hr => State.getV_drawn_other hnodup hr, ?collision, ?noCollision, ?order, ?newValue⟩
  case collision =>
    rintro ⟨p, hp, hon⟩
    exact State.getV_drawn_collision hnodup ⟨p, (hcovers p).1 hp, hon⟩
  case noCollision => exact fun hoff => State.getV_drawn_no_collision hnodup fun p hp => hoff p ((hcovers p).2 hp)
  case order =>
    rw [List.map_map, ← State.drawCoords_eq_toggledInOrder]
    exact onGrid_some _ _ hps
  case newValue =>
    intro e he
    obtain ⟨p, hp, rfl⟩ := List.mem_map.1 he
    exact (State.get_drawn_fb_of_mem hnodup hp).symm

/-- Settles O55: the two tests of a draw, failed in their order. -/
theorem drawFaults : Obligations.DrawFaults := fun _ _ _ _ =>
  ⟨exec_drw_of_unreadable, fun hread hgrid => exec_drw_of_offGrid hread (State.onGrid_drawCoords_none.2 hgrid)⟩

/-- Settles O56: the second draw reads the same sprite at the same place, so it toggles the same pixels. -/
theorem drawingTwiceRestores : Obligations.DrawingTwiceRestores := by
  intro x y n s t hs h ht hx hy
  obtain ⟨hread, ps, hps, hnodup, rfl⟩ := exists_drawn_of_running h ht
  have hsame : (s.drawn ps).drawCoords x y n = s.drawCoords x y n := by
    rw [State.drawCoords, hx, hy, State.drawn_eq hnodup]
    rfl
  have hreadAgain : spriteReadable (s.drawn ps) n := by
    rw [State.drawn_eq hnodup]
    exact hread
  refine ⟨_, exec_drw_of_onGrid hreadAgain ((congrArg onGrid hsame).trans hps), ?running,
    State.drawn_drawn_fb hnodup, ?collision⟩
  case running =>
    rw [State.drawn_eq hnodup]
    exact ht
  case collision =>
    rintro ⟨p, hoff, hon⟩
    refine State.getV_drawn_collision hnodup ⟨p, ?_, hon⟩
    by_contra hp
    rw [State.get_drawn_fb_of_not_mem hnodup hp, hoff] at hon
    cases hon

end Sys2Proof.Claims

end

section
/-! O57 to O60: the keypad and timer instructions (44_keypad_timer_instr.md R161 to R166). What each form answers under its
test; the key a register value selects is the one of that number. -/

namespace Sys2Proof

variable (x : Reg)

theorem decode_formatXF_ldVxDt : decode (formatXF 0xF#4 x 0x07#8) = .ok (.ldVxDt x) := decode_encode (.ldVxDt x)

theorem decode_formatXF_ldDt : decode (formatXF 0xF#4 x 0x15#8) = .ok (.ldDt x) := decode_encode (.ldDt x)

theorem decode_formatXF_ldSt : decode (formatXF 0xF#4 x 0x18#8) = .ok (.ldSt x) := decode_encode (.ldSt x)

end Sys2Proof

namespace Sys2Proof.Machine

variable {s : State} {x : Reg} {k : Key}

theorem exec_skp_of_key (h : (s.getV x).toNat = k.val) : exec (.skp x) s = .next (s.skipIf (s.keyDown k)) := by
  rcases execSkp_cases s x with ⟨hout, -⟩ | ⟨k', hk', e⟩
  · omega
  · cases Fin.ext (h.symm.trans hk')
    exact e

theorem exec_sknp_of_key (h : (s.getV x).toNat = k.val) : exec (.sknp x) s = .next (s.skipIf (!s.keyDown k)) := by
  rcases execSknp_cases s x with ⟨hout, -⟩ | ⟨k', hk', e⟩
  · omega
  · cases Fin.ext (h.symm.trans hk')
    exact e

theorem exec_skp_of_no_key (h : 0x0F < (s.getV x).toNat) :
    exec (.skp x) s = .next (s.raise .keyIndexOutOfRange (encode (.skp x))) := by
  rcases execSkp_cases s x with ⟨-, e⟩ | ⟨k, hk, -⟩
  · exact e
  · omega

theorem exec_sknp_of_no_key (h : 0x0F < (s.getV x).toNat) :
    exec (.sknp x) s = .next (s.raise .keyIndexOutOfRange (encode (.sknp x))) := by
  rcases execSknp_cases s x with ⟨-, e⟩ | ⟨k, hk, -⟩
  · exact e
  · omega

theorem exec_ldVxK_of_waiting (h : ∀ k, s.keyDown k = false) : exec (.ldVxK x) s = .next s := by
  rcases execLdVxK_cases s x with ⟨-, e⟩ | ⟨k, ⟨hdown, -⟩, -⟩
  · exact e
  · simp [h k] at hdown

theorem exec_ldVxK_of_least (hdown : s.keyDown k = true) (hleast : ∀ j, j < k → s.keyDown j = false) :
    exec (.ldVxK x) s = .next (s.setV x (BitVec.ofNat 8 k.val)).advance := by
  have hkey : s.lowestKey = some k := (State.lowestKey_some s k).2 ⟨hdown, hleast⟩
  simp only [exec, execLdVxK, hkey]

/-- A key number fits in a register. -/
theorem toNat_ofNat_key (k : Key) : (BitVec.ofNat 8 k.val).toNat = k.val :=
  (BitVec.toNat_ofNat _ _).trans (Nat.mod_eq_of_lt (k.isLt.trans (by decide)))

end Sys2Proof.Machine

namespace Sys2Proof.Claims

open Sys2Proof.Machine

/-- Settles O57: the test of each skip is the key's level, or its complement. -/
theorem skipOnKey : Obligations.SkipOnKey := fun _ _ s h =>
  ⟨(exec_skp_of_key h).trans (congrArg _ (s.skipIf_of_iff Iff.rfl)),
    (exec_sknp_of_key h).trans (congrArg _ (s.skipIf_of_iff (Bool.not_eq_true' _).to_iff))⟩

/-- Settles O58: no key has a number above 0x0F. -/
theorem keyIndexFaults : Obligations.KeyIndexFaults := fun _ _ h => ⟨exec_skp_of_no_key h, exec_sknp_of_no_key h⟩

/-- Settles O59: the least pressed key is written to `V[X]`; with none pressed the instruction waits. -/
theorem waitForKey : Obligations.WaitForKey := by
  refine fun x s => ⟨fun k hdown hleast => ⟨_, exec_ldVxK_of_least hdown hleast, fun r => ?_⟩, exec_ldVxK_of_waiting⟩
  refine (s.toNat_getV_setV x r _).trans ?_
  rw [toNat_ofNat_key]

/-- Settles O60: the decoder's three rows, and one write each. -/
theorem timerMoves : Obligations.TimerMoves := fun x s =>
  ⟨decode_formatXF_ldVxDt x, decode_formatXF_ldDt x, decode_formatXF_ldSt x, s.exists_writeReg x s.dt, rfl, rfl⟩

end Sys2Proof.Claims

end

section
/-! O5 to O9, O12 to O16, O18, O21: one step and one event at a time (00_scope.md R4, R5; 60_exceptions.md R171 to R193;
70_reset_and_hazards.md R200 to R207), and the state after `Reset`. -/

namespace Sys2Proof.Machine

variable {s : State}

/-! ### The event `Step` -/

theorem step_of_running (he : s.nextEvent = .step) (hr : s.Running) : step s = s.takeEvent.closeLoad.runOne := by
  rw [step_def, he]
  exact cpuStep_running _ hr

theorem loadAccepted_halted (hs : ¬ s.Running) (bytes : List Byte) : loadAccepted bytes s = false := by
  refine Bool.eq_false_iff.2 fun haccepted => hs ?_
  obtain ⟨hr, -⟩ := (loadAccepted_iff s bytes).1 haccepted
  exact hr

/-- A halted core ignores every event but `Reset` (R174). -/
theorem performEvent_halted (hs : ¬ s.Running) {e : Event} (he : e ≠ .reset) : performEvent e s = .next s := by
  have hhalted : s.halted = true := s.halted_iff.2 hs
  cases e with
  | reset => exact absurd rfl he
  | loadProgram bytes => exact performEvent_loadProgram_refused (loadAccepted_halted hs bytes)
  | step => exact cpuStep_halted s hs
  | tick => exact congrArg Host.Outcome.next (if_pos hhalted)
  | setKey c p => exact congrArg Host.Outcome.next (if_pos hhalted)
  | flush => exact congrArg Host.Outcome.next (if_pos hhalted)

/-! ### The timers -/

theorem soundTrigger_halted (hs : ¬ s.Running) : soundTrigger s = false := by
  rw [soundTrigger, s.halted_iff.2 hs]
  rfl

theorem soundTrigger_iff (hr : s.Running) : soundTrigger s = true ↔ s.st.toNat = 2 := by
  rw [soundTrigger, s.halted_false_iff.2 hr, Bool.not_false, Bool.true_and, beq_iff_eq, ← BitVec.toNat_inj]
  rfl

/-- After `k` Ticks the core still runs and the sound timer is down by `k`, with a floor at 0 (R181). -/
theorem iterate_tick (hr : s.Running) (k : Nat) :
    (tick^[k] s).Running ∧ (tick^[k] s).st.toNat = s.st.toNat - k := by
  induction k with
  | zero => exact ⟨hr, rfl⟩
  | succ k ih =>
    obtain ⟨hrk, hst⟩ := ih
    rw [Function.iterate_succ_apply', tick_running _ hrk]
    refine ⟨hrk, (toNat_countDown _).trans ?_⟩
    rw [hst, Nat.sub_sub]

/-! ### Loading a program -/

theorem loadAccepted_of_closed {bytes : List Byte} (h : s.loadOpen = false) : loadAccepted bytes s = false := by
  refine Bool.eq_false_iff.2 fun haccepted => ?_
  obtain ⟨-, hopen, -⟩ := (loadAccepted_iff s bytes).1 haccepted
  rw [h] at hopen
  cases hopen

/-! ### The state after `Reset` -/

theorem length_font : Config.font.length = 80 := rfl

/-- A cell outside the font region is zero after reset (R43). -/
theorem Memory.unlisted_of_not_font {a : Nat} (h : a < 0x050 ∨ 0x0A0 ≤ a) : Memory.unlisted a = 0 := by
  rw [Memory.unlisted, show Config.fontBase = 0x050 from rfl]
  split
  · exact List.getD_eq_default _ _ (by rw [length_font]; omega)
  · rfl

theorem Memory.unlisted_font {k : Nat} (h : k < 80) : Memory.unlisted (0x050 + k) = Config.font[k]'h := by
  rw [Memory.unlisted, show Config.fontBase = 0x050 from rfl, if_pos (Nat.le_add_right _ _), Nat.add_sub_cancel_left]
  exact List.getD_eq_getElem _ _ h

theorem State.reset_inv : State.reset.Inv := ⟨Nat.zero_le _, rfl, fun _ _ => rfl⟩

theorem State.reset_pcInv : State.reset.PcInv := by
  refine ⟨by decide, fun k => ?_⟩
  have hk : State.reset.stack[k] = 0 := Vector.getElem_replicate k.isLt
  exact (congrArg BitVec.toNat hk).trans_le (Nat.zero_le _)

end Sys2Proof.Machine

namespace Sys2Proof.Claims

open Sys2Proof.Machine

/-- Settles O5: the head of the schedule is the next event, the tail what remains. -/
theorem stepPerformsTheNextEvent : Obligations.StepPerformsTheNextEvent := by
  refine ⟨fun s e rest h => ?scheduled, fun s h => ?empty⟩
  case scheduled => rw [step_def, State.nextEvent, State.takeEvent, h]; rfl
  case empty => rw [step_def, State.takeEvent_nil s h, State.nextEvent, h]; rfl

/-- Settles O6: the fetch reads the two bytes, and the decoded instruction is run. -/
theorem stepRunsTheDecodedInstruction : Obligations.StepRunsTheDecodedInstruction := fun _ _ he hr hpc hdecode =>
  (step_of_running he hr).trans (State.runOne_ok _ (State.fetch_some _ hpc) hdecode)

/-- Settles O7: no word is fetched. -/
theorem fetchOutOfRangeIsAFault : Obligations.FetchOutOfRangeIsAFault := fun _ he hr hpc =>
  (step_of_running he hr).trans (State.runOne_fetch_none _ (State.fetch_none _ hpc))

/-- Settles O8: the fetched word is rejected. -/
theorem unknownOpcodeIsAFault : Obligations.UnknownOpcodeIsAFault := fun _ _ he hr hpc hdecode =>
  (step_of_running he hr).trans (State.runOne_error _ (State.fetch_some _ hpc) hdecode)

/-- Settles O9: the state is kept, and the results are read off the halted state. -/
theorem haltedCoreIgnoresEveryEventButReset : Obligations.HaltedCoreIgnoresEveryEventButReset := fun s hs =>
  ⟨fun _ => performEvent_halted hs, if_pos (s.halted_iff.2 hs), soundTrigger_halted hs, rfl,
    fun bytes => loadResult_refused (loadAccepted_halted hs bytes)⟩

/-- Settles O12: both counters count down; ST goes from 2 to 1 exactly where it holds 2. -/
theorem tickCountsBothTimersDown : Obligations.TickCountsBothTimersDown := by
  refine fun s hr => ⟨countDown s.dt, countDown s.st, congrArg Host.Outcome.next (tick_running s hr),
    toNat_countDown _, toNat_countDown _, ?_⟩
  rw [soundTrigger_iff hr, toNat_countDown]
  omega

/-- Settles O13: after `k` Ticks the timer holds 2 exactly where it held `k + 2` before. -/
theorem soundTriggerComesAtOneTick : Obligations.SoundTriggerComesAtOneTick := by
  intro s k hr
  obtain ⟨hrk, hst⟩ := iterate_tick hr k
  rw [soundTrigger_iff hrk, hst]
  omega

/-- Settles O14: one key is put. -/
theorem setKeyWritesOneKey : Obligations.SetKeyWritesOneKey := fun s c p hr =>
  ⟨s.keys.set c p, congrArg Host.Outcome.next (setKey_running s c p hr), fun k => s.keyDown_putKey c k p⟩

/-- Settles O15: the result is the queue before, the state has it emptied. -/
theorem flushDrainsTheLog : Obligations.FlushDrainsTheLog := by
  refine fun s hr => ⟨rfl, congrArg Host.Outcome.next (flush_running s hr), ?_⟩
  rw [flush_running s hr]
  rfl

/-- Settles O16: an accepted load writes the block of the image, and either of the two tests refuses one. -/
theorem loadProgramCopiesTheImage : Obligations.LoadProgramCopiesTheImage := by
  refine fun s bytes hr => ⟨?accepted, ?refused⟩
  case accepted =>
    rintro ⟨hopen, hlength⟩
    have haccepted : loadAccepted bytes s = true := (loadAccepted_iff s bytes).2 ⟨hr, hopen, hlength⟩
    exact ⟨loadResult_accepted haccepted, s.mem.writeBytes 0x200 bytes,
      congrArg Host.Outcome.next (loadProgram_accepted s bytes haccepted),
      Memory.read_writeBytes_inside bytes s.mem 0x200, Memory.read_writeBytes_outside bytes s.mem 0x200⟩
  case refused =>
    intro h
    have hrefused : loadAccepted bytes s = false := h.elim loadAccepted_of_closed loadAccepted_of_too_long
    exact ⟨loadResult_refused hrefused, performEvent_loadProgram_refused hrefused⟩

/-- Settles O18: every field of the reset state, and its memory, the reset contents. -/
theorem resetWritesEverything : Obligations.ResetWritesEverything := fun s =>
  ⟨s.resetCore, rfl, fun r => Vector.getElem_replicate r.isLt, rfl, rfl, fun k => Vector.getElem_replicate k.isLt, rfl,
    rfl, rfl, fun k => Vector.getElem_replicate k.isLt, Framebuffer.get_blank, rfl, rfl, rfl, rfl, rfl,
    fun _ => Memory.unlisted_font, fun _ => Memory.unlisted_of_not_font⟩

/-- Settles O21: neither invariant reads the schedule. -/
theorem resetMeetsTheInvariants : Obligations.ResetMeetsTheInvariants := fun _ =>
  ⟨⟨State.reset_inv.index, State.reset_inv.memory, State.reset_inv.low⟩,
    ⟨State.reset_pcInv.pc, State.reset_pcInv.stack⟩⟩

end Sys2Proof.Claims

end

section
/-! O11, O25, O26, O27: what an instruction leaves alone (10_state.md R20 to R38, 20_memory.md R51). `Effect` lists the kinds
of change the 34 meanings make; `exec_effect` says every meaning makes one of them. The frame of each piece of state is then
read off the kinds. -/

namespace Sys2Proof.Machine

open Sys2Proof.Claims

/-- The instructions with a test that can fail (R170). -/
def mayFault : Instr → Bool
  | .ret | .call _ | .drw _ _ _ | .skp _ | .sknp _ | .ldB _ | .stRegs _ | .ldRegs _ => true
  | _ => false

/-- The instructions that write `I` (R26). -/
def writesIndex : Instr → Bool
  | .ldI _ | .addI _ | .ldF _ => true
  | _ => false

/-- What an instruction can make of a state, by the pieces of state it writes. -/
inductive Effect (s : State) : Instr → State → Prop
  | fault (i : Instr) (c : Cause) (hi : mayFault i = true) : Effect s i (s.raise c (encode i))
  | regs (i : Instr) (v : Vector Byte 16) (pc : Word) (hv : ∀ r, mayWrite i r = false → v[r] = s.getV r)
      (hi : storedBytes s i = none) : Effect s i { s with v := v, pc := pc }
  | index (i : Instr) (v : Vector Byte 16) (w pc : Word) (hv : ∀ r, mayWrite i r = false → v[r] = s.getV r)
      (hi : writesIndex i = true) : Effect s i { s with v := v, i := w &&& 0x0FFF, pc := pc }
  | rnd (x : Reg) (nn : Byte) (v : Vector Byte 16) (pc : Word) (hv : ∀ r, r ≠ x → v[r] = s.getV r) :
      Effect s (.rnd x nn) { s with v := v, pc := pc, draws := s.draws + 1 }
  | call (nnn : Addr) (sp : Fin 17) (h : s.sp.val < 16) :
      Effect s (.call nnn) { s with stack := s.stack.set s.sp.val s.pc, sp := sp, pc := nnn.setWidth 16 }
  | ret (sp : Fin 17) (pc : Word) : Effect s .ret { s with sp := sp, pc := pc }
  | ldDt (x : Reg) (b : Byte) (pc : Word) : Effect s (.ldDt x) { s with dt := b, pc := pc }
  | ldSt (x : Reg) (b : Byte) (pc : Word) : Effect s (.ldSt x) { s with st := b, pc := pc }
  | store (i : Instr) (bytes : List Byte) (pc : Word) (hi : storedBytes s i = some (s.base, bytes.length))
      (hlow : 0x200 ≤ s.base) (hhigh : s.base + bytes.length ≤ 0x1000) :
      Effect s i { s with mem := s.mem.writeBytes s.base bytes, pc := pc }
  | cls : Effect s .cls s.clearDisplay.advance
  | draw (x y : Reg) (n : Fin 16) (ps : List Pixel) (h : ps.Nodup) :
      Effect s (.drw x y n)
        { s with
          v := (s.drawn ps).v
          fb := (s.drawn ps).fb
          log := s.log ++ ps.map fun p => ⟨p, !s.fb.get p⟩
          drawReq := true
          pc := s.pc + 2 }

section
variable {s t : State} {i : Instr} {x : Reg} {b flag : Byte}

/-! ### Every meaning has one of the effects -/

theorem effect_of_pc (pc : Word) (hi : storedBytes s i = none) : Effect s i { s with pc := pc } :=
  .regs i s.v pc (fun _ _ => rfl) hi

theorem effect_writeReg (hw : ∀ r, mayWrite i r = (r == x)) (hi : storedBytes s i = none) :
    Effect s i (s.writeReg x b) := by
  refine .regs i (s.writeReg x b).v _ (fun r hr => ?_) hi
  rw [hw r, beq_eq_false_iff_ne] at hr
  exact (s.getV_writeReg x r b).trans (if_neg hr)

theorem effect_flagThenResult {result : State → Byte} (hw : ∀ r, mayWrite i r = (r == x || r == VF))
    (hi : storedBytes s i = none) : Effect s i (s.flagThenResult flag x result) := by
  refine .regs i (s.flagThenResult flag x result).v _ (fun r hr => ?_) hi
  rw [hw r, Bool.or_eq_false_iff, beq_eq_false_iff_ne, beq_eq_false_iff_ne] at hr
  obtain ⟨hx, hflag⟩ := hr
  exact (s.getV_flagThenResult flag x result r).trans ((if_neg hx).trans (if_neg hflag))

theorem effect_storeAtI {bytes : List Byte} (hi : storedBytes s i = some (s.base, bytes.length)) (hf : mayFault i = true)
    (hb : 0 < bytes.length) (h : storeAtI (encode i) bytes s = .next t) : Effect s i t := by
  rcases storeAtI_cases s (encode i) bytes with ⟨c, -, e⟩ | ⟨hcheck, e⟩ <;> cases h.symm.trans e
  · exact .fault i c hf
  · obtain ⟨hlow, hhigh⟩ := (checkRange_write_none _ _ hb).1 hcheck
    exact .store i bytes _ hi hlow hhigh

theorem effect_ldRegs (h : exec (.ldRegs x) s = .next t) : Effect s (.ldRegs x) t := by
  rcases execLdRegs_cases s x with ⟨-, e⟩ | ⟨hin, -⟩
  · cases h.symm.trans e
    exact .fault _ _ rfl
  · cases h.symm.trans (exec_ldRegs_of_range hin)
    refine .regs _ _ _ (fun r hr => ?_) rfl
    exact (State.getV_loadRegs_readBytes s.mem s.base r).trans (if_neg (of_decide_eq_false hr))

theorem effect_drw {y : Reg} {n : Fin 16} (h : exec (.drw x y n) s = .next t) : Effect s (.drw x y n) t := by
  rcases execDrw_cases s x y n with ⟨-, e⟩ | ⟨-, -, e⟩ | ⟨-, ps, hps, e⟩ <;> cases h.symm.trans e
  · exact .fault _ _ rfl
  · exact .fault _ _ rfl
  · have hnodup := nodup_onGrid _ _ _ _ hps
    have hdraw := Effect.draw (s := s) x y n ps hnodup
    rw [← State.drawn_eq hnodup] at hdraw
    exact hdraw

theorem exec_effect (h : exec i s = .next t) : Effect s i t := by
  cases i with
  | cls => cases h; exact .cls
  | ret =>
    rcases execRet_cases s with ⟨-, e⟩ | ⟨-, e⟩ <;> cases h.symm.trans e
    · exact .fault .ret _ rfl
    · exact .ret _ _
  | call nnn =>
    rcases execCall_cases s nnn with ⟨-, e⟩ | ⟨hsp, e⟩ <;> cases h.symm.trans e
    · exact .fault _ _ rfl
    · exact .call nnn _ hsp
  | jp | jpV0 | seImm | sneImm | seReg | sneReg => cases h; exact effect_of_pc _ rfl
  | skp x =>
    rcases execSkp_cases s x with ⟨-, e⟩ | ⟨_, -, e⟩ <;> cases h.symm.trans e
    · exact .fault _ _ rfl
    · exact effect_of_pc _ rfl
  | sknp x =>
    rcases execSknp_cases s x with ⟨-, e⟩ | ⟨_, -, e⟩ <;> cases h.symm.trans e
    · exact .fault _ _ rfl
    · exact effect_of_pc _ rfl
  | ldImm | addImm | ldReg | orReg | andReg | xorReg | ldVxDt =>
    cases h; exact effect_writeReg (fun _ => rfl) rfl
  | ldVxK x =>
    rcases execLdVxK_cases s x with ⟨-, e⟩ | ⟨_, -, e⟩ <;> cases h.symm.trans e
    · exact effect_of_pc _ rfl
    · exact effect_writeReg (fun _ => rfl) rfl
  | addReg | subReg | shr | subnReg | shl => cases h; exact effect_flagThenResult (fun _ => rfl) rfl
  | rnd x nn => cases h; exact .rnd x nn _ _ fun r hr => s.getV_setV_other x r _ hr
  | ldI | ldF => cases h; exact .index _ s.v _ _ (fun _ _ => rfl) rfl
  | addI x => cases h; exact .index _ _ _ _ (fun r hr => s.getV_setV_other VF r _ (beq_eq_false_iff_ne.1 hr)) rfl
  | drw => exact effect_drw h
  | ldDt x => cases h; exact .ldDt x _ _
  | ldSt x => cases h; exact .ldSt x _ _
  | ldB x => exact effect_storeAtI rfl rfl (length_bcdDigits_pos _) h
  | stRegs x =>
    exact effect_storeAtI (by rw [State.length_regsThrough]; rfl) rfl (s.length_regsThrough_pos x) h
  | ldRegs => exact effect_ldRegs h

/-! ### The frame of each piece of state -/

namespace Effect

theorem getV_eq (h : Effect s i t) {r : Reg} (hr : mayWrite i r = false) : t.getV r = s.getV r := by
  cases h with
  | regs _ _ _ hv | index _ _ _ _ hv => exact hv r hr
  | rnd _ _ _ _ hv => exact hv r (beq_eq_false_iff_ne.1 hr)
  | draw _ _ _ _ hnodup => exact State.getV_drawn_other hnodup (beq_eq_false_iff_ne.1 hr)
  | _ => rfl

/-- Memory is kept, or a block inside 0x200 to 0xFFF is stored at `I` (R51, R57). -/
theorem mem_eq_or_store (h : Effect s i t) : t.mem = s.mem ∨
    ∃ bytes : List Byte, storedBytes s i = some (s.base, bytes.length) ∧ 0x200 ≤ s.base ∧
      s.base + bytes.length ≤ 0x1000 ∧ t.mem = s.mem.writeBytes s.base bytes := by
  cases h with
  | store _ bytes _ hi hlow hhigh => exact .inr ⟨bytes, hi, hlow, hhigh, rfl⟩
  | _ => exact .inl rfl

/-- `I` is kept, or written with its mask (R26). -/
theorem i_eq_or_masked (h : Effect s i t) : t.i = s.i ∨ writesIndex i = true ∧ ∃ w, t.i = w &&& 0x0FFF := by
  cases h with
  | index _ _ w _ _ hi => exact .inr ⟨hi, w, rfl⟩
  | _ => exact .inl rfl

theorem stack_eq (h : Effect s i t) (hcall : ∀ n, i ≠ .call n) : t.stack = s.stack := by
  cases h with
  | call n => exact absurd rfl (hcall n)
  | _ => rfl

theorem sp_eq (h : Effect s i t) (hcall : ∀ n, i ≠ .call n) (hret : i ≠ .ret) : t.sp = s.sp := by
  cases h with
  | call n => exact absurd rfl (hcall n)
  | ret => exact absurd rfl hret
  | _ => rfl

theorem dt_eq (h : Effect s i t) (hi : ∀ x, i ≠ .ldDt x) : t.dt = s.dt := by
  cases h with
  | ldDt x => exact absurd rfl (hi x)
  | _ => rfl

theorem st_eq (h : Effect s i t) (hi : ∀ x, i ≠ .ldSt x) : t.st = s.st := by
  cases h with
  | ldSt x => exact absurd rfl (hi x)
  | _ => rfl

theorem keys_eq (h : Effect s i t) : t.keys = s.keys := by cases h <;> rfl

theorem fb_log_eq (h : Effect s i t) (hcls : i ≠ .cls) (hdrw : ∀ x y n, i ≠ .drw x y n) :
    t.fb = s.fb ∧ t.log = s.log := by
  cases h with
  | cls => exact absurd rfl hcls
  | draw x y n => exact absurd rfl (hdrw x y n)
  | _ => exact ⟨rfl, rfl⟩

theorem drawReq_eq (h : Effect s i t) (hdrw : ∀ x y n, i ≠ .drw x y n) : t.drawReq = s.drawReq := by
  cases h with
  | draw x y n => exact absurd rfl (hdrw x y n)
  | _ => rfl

theorem clearReq_eq (h : Effect s i t) (hcls : i ≠ .cls) : t.clearReq = s.clearReq := by
  cases h with
  | cls => exact absurd rfl hcls
  | _ => rfl

theorem fault_eq (h : Effect s i t) (hi : mayFault i = false) : t.fault = s.fault := by
  cases h with
  | fault _ _ hf => cases hi.symm.trans hf
  | _ => rfl

theorem loadOpen_eq (h : Effect s i t) : t.loadOpen = s.loadOpen := by cases h <;> rfl

theorem schedule_eq (h : Effect s i t) : t.schedule = s.schedule := by cases h <;> rfl

theorem draws_eq (h : Effect s i t) (hrnd : ∀ x n, i ≠ .rnd x n) : t.draws = s.draws := by
  cases h with
  | rnd x n => exact absurd rfl (hrnd x n)
  | _ => rfl

end Effect

/-! ### Every instruction and every step answers a next state -/

theorem exec_exists_next (s : State) (i : Instr) : ∃ t, exec i s = .next t := by
  cases i with
  | ret => rcases execRet_cases s with ⟨-, e⟩ | ⟨-, e⟩ <;> exact ⟨_, e⟩
  | call n => rcases execCall_cases s n with ⟨-, e⟩ | ⟨_, e⟩ <;> exact ⟨_, e⟩
  | drw x y n => rcases execDrw_cases s x y n with ⟨-, e⟩ | ⟨-, -, e⟩ | ⟨-, _, -, e⟩ <;> exact ⟨_, e⟩
  | skp x => rcases execSkp_cases s x with ⟨-, e⟩ | ⟨_, -, e⟩ <;> exact ⟨_, e⟩
  | sknp x => rcases execSknp_cases s x with ⟨-, e⟩ | ⟨_, -, e⟩ <;> exact ⟨_, e⟩
  | ldVxK x => rcases execLdVxK_cases s x with ⟨-, e⟩ | ⟨_, -, e⟩ <;> exact ⟨_, e⟩
  | ldB x => rcases storeAtI_cases s (encode (.ldB x)) (bcdDigits (s.getV x)) with ⟨_, -, e⟩ | ⟨-, e⟩ <;> exact ⟨_, e⟩
  | stRegs x => rcases storeAtI_cases s (encode (.stRegs x)) (s.regsThrough x) with ⟨_, -, e⟩ | ⟨-, e⟩ <;> exact ⟨_, e⟩
  | ldRegs x => rcases execLdRegs_cases s x with ⟨-, e⟩ | ⟨-, e⟩ <;> exact ⟨_, e⟩
  | _ => exact ⟨_, rfl⟩

theorem runOne_exists_next (s : State) : ∃ t, s.runOne = .next t := by
  rcases s.runOne_cases with ⟨-, e⟩ | ⟨_, _, -, -, e⟩ | ⟨_, i, -, -, e⟩
  · exact ⟨_, e⟩
  · exact ⟨_, e⟩
  · exact e ▸ exec_exists_next s i

theorem performEvent_exists_next (s : State) (e : Event) : ∃ t, performEvent e s = .next t := by
  cases e with
  | step =>
    by_cases hr : s.Running
    · obtain ⟨t, ht⟩ := runOne_exists_next s.closeLoad
      exact ⟨t, (cpuStep_running s hr).trans ht⟩
    · exact ⟨s, cpuStep_halted s hr⟩
  | _ => exact ⟨_, rfl⟩

end
end Sys2Proof.Machine

namespace Sys2Proof.Claims

open Sys2Proof.Machine

/-- Settles O11: no event and no instruction refuses. -/
theorem everyStepAnswersANextState : Obligations.EveryStepAnswersANextState := fun s =>
  performEvent_exists_next s.takeEvent s.nextEvent

/-- Settles O25: the registers' frame of the instruction's effect. -/
theorem otherRegistersKeepTheirValue : Obligations.OtherRegistersKeepTheirValue := fun _ _ _ h _ =>
  (exec_effect h).getV_eq

/-- Settles O26: memory is kept or the stored block alone is written. -/
theorem otherMemoryKeepsItsValue : Obligations.OtherMemoryKeepsItsValue := by
  intro i s t h
  rcases (exec_effect h).mem_eq_or_store with hmem | ⟨bytes, hstored, -, -, hmem⟩
  · exact ⟨fun _ _ => hmem ▸ rfl, fun _ _ _ _ _ => hmem ▸ rfl⟩
  · refine ⟨fun hnone => ?nothing, fun b n hsome a ha => ?outside⟩
    case nothing => cases hstored.symm.trans hnone
    case outside =>
      cases hstored.symm.trans hsome
      rw [hmem, Memory.read_writeBytes_outside _ _ _ _ ha]

/-- Settles O27: the frame of each piece of state, from the instruction's effect. -/
theorem otherStateKeepsItsValue : Obligations.OtherStateKeepsItsValue := by
  intro i s t h
  have heffect := exec_effect h
  refine ⟨fun hldI haddI hldF => ?index, heffect.stack_eq, heffect.sp_eq, heffect.dt_eq, heffect.st_eq, heffect.keys_eq,
    heffect.fb_log_eq, heffect.drawReq_eq, heffect.clearReq_eq,
    fun hret hcall hdrw hskp hsknp hldB hstRegs hldRegs => heffect.fault_eq ?fault, heffect.loadOpen_eq,
    heffect.schedule_eq, heffect.draws_eq⟩
  case index =>
    rcases heffect.i_eq_or_masked with hkept | ⟨hwrites, -⟩
    · exact hkept
    · cases i with
      | ldI n => exact absurd rfl (hldI n)
      | addI x => exact absurd rfl (haddI x)
      | ldF x => exact absurd rfl (hldF x)
      | _ => cases hwrites
  case fault =>
    cases i with
    | ret => exact absurd rfl hret
    | call n => exact absurd rfl (hcall n)
    | drw x y n => exact absurd rfl (hdrw x y n)
    | skp x => exact absurd rfl (hskp x)
    | sknp x => exact absurd rfl (hsknp x)
    | ldB x => exact absurd rfl (hldB x)
    | stRegs x => exact absurd rfl (hstRegs x)
    | ldRegs x => exact absurd rfl (hldRegs x)
    | _ => rfl

end Sys2Proof.Claims

end

section
/-! O10, O19, O20, O22, O23: what every step keeps. `StepEffect` lists what a step, with any event, can make of a state;
each rule is one case analysis over it, and `Effect` says the same of the instruction a `Step` runs. -/

namespace Sys2Proof.Machine

/-- What a step can make of a state. `idle` is a halted core or a refused load; `stepFault` a fetch or a decoding that
failed. -/
inductive StepEffect (s : State) : State → Prop
  | idle : StepEffect s s.takeEvent
  | reset (he : s.nextEvent = .reset) : StepEffect s s.takeEvent.resetCore
  | load (bytes : List Byte) (h : bytes.length ≤ 3584) :
      StepEffect s (s.takeEvent.setMem (s.mem.writeBytes 0x200 bytes)).closeLoad
  | stepFault (c : Cause) (op : Word) : StepEffect s (s.takeEvent.closeLoad.raise c op)
  | exec (i : Instr) (t : State) (hr : s.Running) (hpc : s.pc.toNat ≤ 0xFFE)
      (h : Machine.exec i s.takeEvent.closeLoad = .next t) : StepEffect s t
  | tick (d b : Byte) : StepEffect s { s.takeEvent with dt := d, st := b }
  | setKey (c : Key) (p : Bool) : StepEffect s (s.takeEvent.putKey c p)
  | flush (he : s.nextEvent = .flush) : StepEffect s { s.takeEvent with log := [], drawReq := false, clearReq := false }

section
variable {s t : State} {i : Instr}

/-- A fetched word is the one at `pc`, which points into the memory (R52, R53). -/
theorem State.of_fetch_eq_some {op : Word} (h : s.fetch = some op) :
    s.pc.toNat ≤ 0xFFE ∧ op = s.mem.read s.pc.toNat ++ s.mem.read (s.pc.toNat + 1) := by
  by_cases hpc : s.pc.toNat ≤ 0xFFE
  · exact ⟨hpc, Option.some.inj (h.symm.trans (s.fetch_some hpc))⟩
  · cases h.symm.trans (s.fetch_none (Nat.lt_of_not_le hpc))

theorem stepEffect_of_running (hr : s.Running) (h : s.takeEvent.closeLoad.runOne = .next t) : StepEffect s t := by
  rcases s.takeEvent.closeLoad.runOne_cases with ⟨-, e⟩ | ⟨op, _, -, -, e⟩ | ⟨op, i, hfetch, -, e⟩
  · cases h.symm.trans e
    exact .stepFault _ _
  · cases h.symm.trans e
    exact .stepFault _ _
  · obtain ⟨hpc, -⟩ := State.of_fetch_eq_some hfetch
    exact .exec i t hr hpc (e.symm.trans h)

theorem step_effect (h : step s = .next t) : StepEffect s t := by
  rw [step_def] at h
  by_cases hr : s.Running
  · cases he : s.nextEvent with
    | reset => rw [he] at h; cases h; exact .reset he
    | loadProgram bytes =>
      rw [he] at h
      cases h
      cases haccepted : loadAccepted bytes s.takeEvent with
      | false => rw [loadProgram_refused _ _ haccepted]; exact .idle
      | true =>
        obtain ⟨-, -, hlength⟩ := (loadAccepted_iff _ _).1 haccepted
        rw [loadProgram_accepted _ _ haccepted]
        exact .load bytes hlength
    | step =>
      rw [he] at h
      exact stepEffect_of_running hr ((cpuStep_running s.takeEvent hr).symm.trans h)
    | tick => rw [he] at h; cases h; rw [tick_running s.takeEvent hr]; exact .tick _ _
    | setKey c p => rw [he] at h; cases h; rw [setKey_running s.takeEvent c p hr]; exact .setKey c p
    | flush => rw [he] at h; cases h; rw [flush_running s.takeEvent hr]; exact .flush he
  · by_cases he : s.nextEvent = .reset
    · rw [he] at h; cases h; exact .reset he
    · cases h.symm.trans (performEvent_halted (s := s.takeEvent) hr he); exact .idle

/-! ### Memory and the index register -/

/-- A block stored from 0x200 upward leaves the low memory alone (R57). -/
theorem Memory.read_writeBytes_low (m : Memory) (bs : List Byte) {a a' : Nat} (ha : 0x200 ≤ a) (h : a' < 0x200) :
    (m.writeBytes a bs).read a' = m.read a' :=
  Memory.read_writeBytes_outside bs m a a' (.inl (by omega))

theorem Effect.read_low (h : Effect s i t) {a : Nat} (ha : a < 0x200) : t.mem.read a = s.mem.read a := by
  rcases h.mem_eq_or_store with hmem | ⟨bytes, -, hlow, -, hmem⟩
  · rw [hmem]
  · rw [hmem, Memory.read_writeBytes_low _ _ hlow ha]

theorem Effect.mem_wf (h : Effect s i t) (hs : s.mem.wf = true) : t.mem.wf = true := by
  rcases h.mem_eq_or_store with hmem | ⟨bytes, -, -, hhigh, hmem⟩
  · rw [hmem, hs]
  · rw [hmem, Memory.wf_writeBytes _ _ _ hs hhigh]

theorem Effect.index_le (h : Effect s i t) (hs : s.i.toNat ≤ 0xFFF) : t.i.toNat ≤ 0xFFF := by
  rcases h.i_eq_or_masked with hi | ⟨-, w, hi⟩
  · rw [hi]; exact hs
  · rw [hi, toNat_mask12]
    omega

theorem StepEffect.read_low (h : StepEffect s t) (he : s.nextEvent ≠ .reset) {a : Nat} (ha : a < 0x200) :
    t.mem.read a = s.mem.read a := by
  cases h with
  | reset hreset => exact absurd hreset he
  | load bytes => exact Memory.read_writeBytes_low _ _ (Nat.le_refl _) ha
  | exec i t _ _ hexec => exact (exec_effect hexec).read_low ha
  | _ => rfl

theorem StepEffect.inv (h : StepEffect s t) (hs : s.Inv) : t.Inv := by
  cases h with
  | reset => exact ⟨State.reset_inv.index, State.reset_inv.memory, State.reset_inv.low⟩
  | load bytes hlength =>
    refine ⟨hs.index, Memory.wf_writeBytes bytes _ _ hs.memory ?_, fun a ha => ?_⟩
    · exact show 0x200 + bytes.length ≤ 0x1000 by omega
    · exact (Memory.read_writeBytes_low _ _ (Nat.le_refl _) ha).trans (hs.low a ha)
  | exec i t _ _ hexec =>
    have heffect := exec_effect hexec
    exact ⟨heffect.index_le hs.index, heffect.mem_wf hs.memory,
      fun a ha => (heffect.read_low ha).trans (hs.low a ha)⟩
  | _ => exact ⟨hs.index, hs.memory, hs.low⟩

/-! ### The program counter and the stack -/

/-- From a fetched address no skip leaves the range of R25. -/
theorem toNat_pc_add {w k : Word} (h : w.toNat ≤ 0xFFE) (hk : k.toNat ≤ 4) : (w + k).toNat ≤ 0x10FE := by
  rw [BitVec.toNat_add_of_lt] <;> omega

theorem toNat_pc_addr (nnn : Addr) : (nnn.setWidth 16 : Word).toNat ≤ 0x10FE := by
  have hlt := nnn.isLt
  rw [BitVec.toNat_setWidth_of_le (by decide)]
  omega

/-- The largest `pc` is that of `BNNN`: 0xFF + 0xFFF = 0x10FE (R25, D29). -/
theorem toNat_pc_jpV0 (b : Byte) (nnn : Addr) : (b.setWidth 16 + nnn.setWidth 16 : Word).toNat ≤ 0x10FE := by
  have hb := b.isLt
  have hnnn := nnn.isLt
  rw [toNat_byte_add_addr]
  omega

theorem exec_pc_le (hr : s.Running) (hpc : s.pc.toNat ≤ 0xFFE) (hs : s.PcInv) (h : exec i s = .next t) :
    t.pc.toNat ≤ 0x10FE := by
  by_cases ht : t.Running
  · have htwo : (s.pc + 2).toNat ≤ 0x10FE := toNat_pc_add hpc (by decide)
    have hfour : (s.pc + 4).toNat ≤ 0x10FE := toNat_pc_add hpc (by decide)
    cases i with
    | jp nnn => cases h; exact toNat_pc_addr nnn
    | call nnn => rw [execCall_pc h ht]; exact toNat_pc_addr nnn
    | jpV0 nnn => cases h; exact toNat_pc_jpV0 _ nnn
    | ret =>
      obtain ⟨hsp, e⟩ := execRet_pc h ht
      rw [e]
      exact toNat_pc_add (hs.stack ⟨_, hsp⟩) (by decide)
    | ldVxK x =>
      by_cases hk : ∃ k, s.keyDown k = true
      · rw [execLdVxK_pc_of_pressed h hk]; exact htwo
      · rw [execLdVxK_pc_of_waiting h (by simpa using hk)]; exact hs.pc
    | seImm | sneImm | seReg | sneReg | skp | sknp =>
      rcases exec_pc_of_isSkip rfl h ht with e | e
      · rw [e]; exact htwo
      · rw [e]; exact hfour
    | _ => rw [exec_pc_of_isPlain rfl h ht]; exact htwo
  · rw [exec_pc_of_fault hr h ht]
    exact hs.pc

/-- The only address pushed is that of a fetched word (R25, R103). -/
theorem Effect.stack_le (h : Effect s i t) (hpc : s.pc.toNat ≤ 0xFFE) (hs : s.PcInv) (k : Fin 16) :
    t.stack[k].toNat ≤ 0xFFE := by
  cases h with
  | call nnn sp hsp =>
    have hset : (s.stack.set s.sp.val s.pc)[k] = if s.sp.val = k.val then s.pc else s.stack[k] :=
      Vector.getElem_set hsp k.isLt
    show (s.stack.set s.sp.val s.pc)[k].toNat ≤ 0xFFE
    rw [hset]
    split
    · exact hpc
    · exact hs.stack k
  | _ => exact hs.stack k

theorem StepEffect.pcInv (h : StepEffect s t) (hs : s.PcInv) : t.PcInv := by
  cases h with
  | reset => exact ⟨State.reset_pcInv.pc, State.reset_pcInv.stack⟩
  | exec i t hr hpc hexec =>
    have hs' : s.takeEvent.closeLoad.PcInv := ⟨hs.pc, hs.stack⟩
    exact ⟨exec_pc_le (s := s.takeEvent.closeLoad) hr hpc hs' hexec, (exec_effect hexec).stack_le hpc hs'⟩
  | _ => exact ⟨hs.pc, hs.stack⟩

/-! ### The renderer's picture -/

section
variable {g : Framebuffer}

/-- A toggle is one update, logged as it is made (R34). -/
theorem rendered_drawPixel (h : rendered g s = s.fb) (p : Pixel) : rendered g (s.drawPixel p) = (s.drawPixel p).fb := by
  have hclear : (s.drawPixel p).clearReq = s.clearReq := by unfold State.drawPixel; split <;> rfl
  rw [rendered, State.drawPixel_log, List.foldl_append, hclear, State.drawPixel_fb, ← h]
  rfl

theorem rendered_drawPixels (ps : List Pixel) (h : rendered g s = s.fb) :
    rendered g (s.drawPixels ps) = (s.drawPixels ps).fb := by
  induction ps generalizing s with
  | nil => exact h
  | cons p ps ih => exact ih (rendered_drawPixel h p)

theorem Effect.rendered_eq (h : Effect s i t) (hs : rendered g s = s.fb) : rendered g t = t.fb := by
  cases h with
  | cls => rfl
  | draw x y n ps hnodup =>
    have hdrawn : rendered g (s.drawn ps) = (s.drawn ps).fb := rendered_drawPixels (s := s.setV VF 0) ps hs
    rw [State.drawn_eq hnodup] at hdrawn
    exact hdrawn
  | _ => exact hs

theorem StepEffect.rendered_eq (h : StepEffect s t) (hflush : s.nextEvent ≠ .flush) (hreset : s.nextEvent ≠ .reset)
    (hs : rendered g s = s.fb) : rendered g t = t.fb := by
  cases h with
  | reset he => exact absurd he hreset
  | flush he => exact absurd he hflush
  | exec i t _ _ hexec => exact (exec_effect hexec).rendered_eq hs
  | _ => exact hs

/-- Updates applied twice are the updates applied once: the last one of each cell decides. -/
theorem foldl_applyEntry_idem (l : List LogEntry) : l.foldl applyEntry (l.foldl applyEntry g) = l.foldl applyEntry g := by
  refine Framebuffer.ext_get fun p => ?_
  rw [get_foldl_applyEntry, get_foldl_applyEntry]
  cases (l.filter fun e => e.pixel = p).getLast? <;> rfl

theorem rendered_idem : rendered (rendered g s) s = rendered g s := by
  unfold rendered
  split
  · rfl
  · exact foldl_applyEntry_idem s.log

/-- After a `Flush` of a running core the picture is `fb` and the log is empty; a halted core keeps its log, which leads
from `fb` to `fb` (R36, R174). -/
theorem rendered_flush (hs : rendered g s = s.fb) : rendered (rendered g s) (flush s) = (flush s).fb := by
  by_cases hr : s.Running
  · rw [flush_running s hr]
    exact hs
  · rw [flush, if_pos (s.halted_iff.2 hr), rendered_idem]
    exact hs

end
end
end Sys2Proof.Machine

namespace Sys2Proof.Claims

open Sys2Proof.Machine

/-- Settles O19: every kind of step keeps the three invariants. -/
theorem stepKeepsTheInvariants : Obligations.StepKeepsTheInvariants := fun _ _ hs h => (step_effect h).inv hs

/-- Settles O20: every kind of step keeps `pc` and the stack in their ranges. -/
theorem stepKeepsPcInRange : Obligations.StepKeepsPcInRange := fun _ _ hs h => (step_effect h).pcInv hs

/-- Settles O22: stores and loads begin at 0x200 or above. -/
theorem lowMemoryIsNeverWritten : Obligations.LowMemoryIsNeverWritten := fun _ _ h he _ => (step_effect h).read_low he

/-- Settles O23: each update of the framebuffer is logged in order, and a `Flush` hands the log over. -/
theorem rendererPictureFollowsFramebuffer : Obligations.RendererPictureFollowsFramebuffer := by
  refine fun g s t hs h => ⟨fun hflush hreset => (step_effect h).rendered_eq hflush hreset hs, fun he => ?_⟩
  rw [step_def, he] at h
  cases h
  exact rendered_flush (s := s.takeEvent) hs

/-- Settles O10: a failed fetch, a rejected word, or a test of the instruction, whose encoding is the fetched word. -/
theorem faultsArePrecise : Obligations.FaultsArePrecise := by
  intro s t he hr h ht
  have hrun : s.takeEvent.closeLoad.runOne = .next t := (step_of_running he hr).symm.trans h
  rcases s.takeEvent.closeLoad.runOne_cases with ⟨hfetch, e⟩ | ⟨op, _, hfetch, -, e⟩ | ⟨op, i, hfetch, hdecode, e⟩
  · cases hrun.symm.trans e
    refine ⟨.fetchOutOfRange, 0x0000, by decide, rfl, fun _ => ⟨rfl, rfl⟩, fun hpc => ?_⟩
    cases hfetch.symm.trans (State.fetch_some _ hpc)
  · cases hrun.symm.trans e
    obtain ⟨hpc, hop⟩ := State.of_fetch_eq_some hfetch
    exact ⟨.unknownOpcode, op, by decide, rfl, fun hout => absurd hpc (Nat.not_le.2 hout), fun _ => hop⟩
  · obtain ⟨hpc, hop⟩ := State.of_fetch_eq_some hfetch
    rcases exec_fault_or _ i t (e.symm.trans hrun) with hkept | ⟨c, hc, rfl⟩
    · exact absurd ((congrArg FaultRecord.cause hkept).trans hr) ht
    · exact ⟨c, encode i, hc, rfl, fun hout => absurd hpc (Nat.not_le.2 hout),
        fun _ => (encode_of_decode hdecode).trans hop⟩

end Sys2Proof.Claims

end

section
/-! O28, O29: what no instruction reads (10_state.md R32, R34, R35). `State.mapOutputs` changes the timers, the change log and
the request flags; an instruction that neither writes nor reads them answers the same state changed the same way, for its tests
and its results do not see the change. The display instructions and the timer moves are the cases left. -/

namespace Sys2Proof.Machine

/-- A change of the timers, the change log and the request flags, a function for each. -/
structure OutputMap where
  dt : Byte → Byte := id
  st : Byte → Byte := id
  log : List LogEntry → List LogEntry := id
  drawReq : Bool → Bool := id
  clearReq : Bool → Bool := id

/-- Another change log and other request flags. -/
def OutputMap.ofQueue (l : List LogEntry) (d c : Bool) : OutputMap :=
  { log := fun _ => l, drawReq := fun _ => d, clearReq := fun _ => c }

def State.mapOutputs (f : OutputMap) (s : State) : State :=
  { s with
    dt := f.dt s.dt
    st := f.st s.st
    log := f.log s.log
    drawReq := f.drawReq s.drawReq
    clearReq := f.clearReq s.clearReq }

/-- The instructions that write or read a timer, the change log or a request flag. -/
def touchesOutputs : Instr → Bool
  | .cls | .drw _ _ _ | .ldVxDt _ | .ldDt _ | .ldSt _ => true
  | _ => false

section
variable {s t : State} {i : Instr} {x y : Reg} {n : Fin 16} {f : OutputMap}

/-! ### The results do not see the change -/

/-- The registers a block load leaves depend on the registers before it alone. -/
theorem State.loadRegs_v_congr {s' : State} (hv : s'.v = s.v) (r : Nat) (bs : List Byte) :
    (s'.loadRegs r bs).v = (s.loadRegs r bs).v := by
  induction bs generalizing r s s' with
  | nil => exact hv
  | cons b bs ih =>
    unfold State.loadRegs
    split
    · exact ih (congrArg (·.set r b) hv) (r + 1)
    · exact hv

/-- What a draw leaves in the registers depends on registers and framebuffer alone. -/
theorem State.drawn_v_congr {s' : State} (hv : s'.v = s.v) (hfb : s'.fb = s.fb) {ps : List Pixel} (h : ps.Nodup) :
    (s'.drawn ps).v = (s.drawn ps).v := by
  refine Vector.ext fun k hk => ?_
  change (s'.drawn ps).getV ⟨k, hk⟩ = (s.drawn ps).getV ⟨k, hk⟩
  rw [State.getV_drawn h, State.getV_drawn h, hfb, State.getV_congr hv]

theorem State.drawn_fb_congr {s' : State} (hfb : s'.fb = s.fb) {ps : List Pixel} (h : ps.Nodup) :
    (s'.drawn ps).fb = (s.drawn ps).fb :=
  Framebuffer.ext_get fun p => by rw [State.get_drawn_fb h, State.get_drawn_fb h, hfb]

/-- A draw appends its entries to whatever log there is, and sets its flag whatever it was. -/
theorem State.drawn_mapOutputs {ps : List Pixel} (h : ps.Nodup) :
    (s.mapOutputs f).drawn ps =
      { (s.drawn ps).mapOutputs f with log := f.log s.log ++ ps.map fun p => ⟨p, !s.fb.get p⟩, drawReq := true } := by
  have hmapped := State.drawn_eq (s := s.mapOutputs f) h
  rw [State.drawn_v_congr (s := s) (s' := s.mapOutputs f) rfl rfl h,
    State.drawn_fb_congr (s := s) (s' := s.mapOutputs f) rfl h] at hmapped
  refine hmapped.trans ?_
  rw [State.drawn_eq (s := s) h]
  rfl

/-! ### Each instruction under its test, before and after the change -/

theorem storeAtI_mapOutputs {op : Word} {bytes : List Byte} (h : storeAtI op bytes s = .next t) :
    storeAtI op bytes (s.mapOutputs f) = .next (t.mapOutputs f) := by
  cases hc : checkRange writeCheck s.base bytes.length with
  | some c =>
    cases h.symm.trans (storeAtI_of_check_some hc)
    exact storeAtI_of_check_some hc
  | none =>
    cases h.symm.trans (storeAtI_of_check_none hc)
    exact storeAtI_of_check_none hc

theorem exec_mapOutputs (hi : touchesOutputs i = false) (h : exec i s = .next t) :
    exec i (s.mapOutputs f) = .next (t.mapOutputs f) := by
  cases i with
  | cls | drw | ldVxDt | ldDt | ldSt => cases hi
  | ret =>
    by_cases hsp : s.sp.val = 0
    · cases h.symm.trans (exec_ret_of_empty hsp)
      exact exec_ret_of_empty hsp
    · have hlt := s.sp.isLt
      have htop : s.sp.val = (⟨s.sp.val - 1, by omega⟩ : Fin 16).val + 1 := by simp only; omega
      cases h.symm.trans (exec_ret_of_top _ htop)
      exact exec_ret_of_top (s := s.mapOutputs f) _ htop
  | call nnn =>
    rcases execCall_cases s nnn with ⟨hfull, -⟩ | ⟨hlt, -⟩
    · cases h.symm.trans (exec_call_of_full hfull)
      exact exec_call_of_full hfull
    · cases h.symm.trans (exec_call_of_lt hlt)
      exact exec_call_of_lt (s := s.mapOutputs f) hlt
  | skp x =>
    rcases execSkp_cases s x with ⟨hout, -⟩ | ⟨k, hk, -⟩
    · cases h.symm.trans (exec_skp_of_no_key hout)
      exact exec_skp_of_no_key hout
    · cases h.symm.trans (exec_skp_of_key hk)
      exact exec_skp_of_key hk
  | sknp x =>
    rcases execSknp_cases s x with ⟨hout, -⟩ | ⟨k, hk, -⟩
    · cases h.symm.trans (exec_sknp_of_no_key hout)
      exact exec_sknp_of_no_key hout
    · cases h.symm.trans (exec_sknp_of_key hk)
      exact exec_sknp_of_key hk
  | ldVxK x =>
    rcases execLdVxK_cases s x with ⟨hnone, -⟩ | ⟨k, ⟨hdown, hleast⟩, -⟩
    · cases h.symm.trans (exec_ldVxK_of_waiting hnone)
      exact exec_ldVxK_of_waiting hnone
    · cases h.symm.trans (exec_ldVxK_of_least hdown hleast)
      exact exec_ldVxK_of_least hdown hleast
  | ldB | stRegs => exact storeAtI_mapOutputs h
  | ldRegs x =>
    rcases execLdRegs_cases s x with ⟨hout, -⟩ | ⟨hin, -⟩
    · cases h.symm.trans (exec_ldRegs_of_out hout)
      exact exec_ldRegs_of_out hout
    · cases h.symm.trans (exec_ldRegs_of_range hin)
      refine (exec_ldRegs_of_range (s := s.mapOutputs f) hin).trans ?_
      rw [State.loadRegs_v_congr (s := s) (s' := s.mapOutputs f) rfl]
      rfl
  | _ => cases h; rfl

/-- A draw answers the same but for the log and `drawReq`, and the same in all where the change leaves these two alone. -/
theorem exec_drw_mapOutputs (h : exec (.drw x y n) s = .next t) :
    ∃ l d, exec (.drw x y n) (s.mapOutputs f) = .next { t.mapOutputs f with log := l, drawReq := d } ∧
      (f.log = id → f.drawReq = id → l = t.log ∧ d = t.drawReq) := by
  by_cases hread : Claims.spriteReadable s n
  · cases hgrid : onGrid (s.drawCoords x y n) with
    | none =>
      cases h.symm.trans (exec_drw_of_offGrid hread hgrid)
      refine ⟨f.log s.log, f.drawReq s.drawReq, exec_drw_of_offGrid hread hgrid, fun hl hd => ?_⟩
      rw [hl, hd]
      exact ⟨rfl, rfl⟩
    | some ps =>
      have hnodup : ps.Nodup := nodup_onGrid _ _ _ _ hgrid
      cases h.symm.trans (exec_drw_of_onGrid hread hgrid)
      refine ⟨_, _, (exec_drw_of_onGrid (s := s.mapOutputs f) hread hgrid).trans
        (congrArg _ (State.drawn_mapOutputs hnodup)), fun hl _ => ?_⟩
      rw [hl, State.drawn_eq (s := s) hnodup]
      exact ⟨rfl, rfl⟩
  · cases h.symm.trans (exec_drw_of_unreadable hread)
    refine ⟨f.log s.log, f.drawReq s.drawReq, exec_drw_of_unreadable hread, fun hl hd => ?_⟩
    rw [hl, hd]
    exact ⟨rfl, rfl⟩

/-! ### Another timer value, another queue -/

theorem exec_drw_mapOutputs_timers (hl : f.log = id) (hd : f.drawReq = id) (h : exec (.drw x y n) s = .next t) :
    exec (.drw x y n) (s.mapOutputs f) = .next { t.mapOutputs f with log := t.log, drawReq := t.drawReq } := by
  obtain ⟨l, d, e, hkept⟩ := exec_drw_mapOutputs (f := f) h
  obtain ⟨rfl, rfl⟩ := hkept hl hd
  exact e

theorem exec_of_other_st (b : Byte) (hi : ∀ x, i ≠ .ldSt x) (h : exec i s = .next t) :
    exec i { s with st := b } = .next { t with st := b } := by
  cases i with
  | ldSt x => exact absurd rfl (hi x)
  | cls | ldVxDt | ldDt => cases h; rfl
  | drw => exact exec_drw_mapOutputs_timers (f := { st := fun _ => b }) rfl rfl h
  | _ => exact exec_mapOutputs (f := { st := fun _ => b }) rfl h

theorem exec_of_other_dt (b : Byte) (hdt : ∀ x, i ≠ .ldDt x) (hread : ∀ x, i ≠ .ldVxDt x) (h : exec i s = .next t) :
    exec i { s with dt := b } = .next { t with dt := b } := by
  cases i with
  | ldDt x => exact absurd rfl (hdt x)
  | ldVxDt x => exact absurd rfl (hread x)
  | cls | ldSt => cases h; rfl
  | drw => exact exec_drw_mapOutputs_timers (f := { dt := fun _ => b }) rfl rfl h
  | _ => exact exec_mapOutputs (f := { dt := fun _ => b }) rfl h

theorem exec_of_other_queue (l : List LogEntry) (d c : Bool) (h : exec i s = .next t) :
    ∃ l' d' c', exec i { s with log := l, drawReq := d, clearReq := c } =
      .next { t with log := l', drawReq := d', clearReq := c' } := by
  cases i with
  | cls => cases h; exact ⟨[], d, true, rfl⟩
  | ldVxDt | ldDt | ldSt => cases h; exact ⟨l, d, c, rfl⟩
  | drw =>
    obtain ⟨l', d', e, -⟩ := exec_drw_mapOutputs (f := .ofQueue l d c) h
    exact ⟨l', d', c, e⟩
  | _ => exact ⟨l, d, c, exec_mapOutputs (f := .ofQueue l d c) rfl h⟩

end
end Sys2Proof.Machine

namespace Sys2Proof.Claims

open Sys2Proof.Machine

/-- Settles O28: the timers' change commutes with every instruction that neither writes nor reads that timer. -/
theorem timersInfluenceNothingElse : Obligations.TimersInfluenceNothingElse := fun _ _ _ b h =>
  ⟨fun hst => exec_of_other_st b hst h, fun hdt hread => exec_of_other_dt b hdt hread h⟩

/-- Settles O29: the queue's change shows in the queue alone. -/
theorem displayQueueInfluencesNothingElse : Obligations.DisplayQueueInfluencesNothingElse := fun _ _ _ l d c =>
  exec_of_other_queue l d c

end Sys2Proof.Claims

end
